-- ==== Sys2Proof/Word.lean ====
section
/-! DEFINITION. The value every cell and register holds: a signed 64-bit integer (rules R4, R5).

A word is held as its 64-bit two's complement (rule R34 allows that form beside the integer itself); every rule of
the spec reads it as an integer, so the model reads it by `BitVec.toInt` and writes it by `BitVec.ofInt`, and no
definition slices it by bits (rule R6).
-/
namespace Sys2Proof

/-- The spec's Int64: one memory cell, `pc`, `rb`, an input or an output (rule R5). -/
abbrev Word := BitVec 64

/-- The least value of Int64, −2^63 (rule R5). -/
abbrev minInt64 : Int := -9223372036854775808

/-- The greatest value of Int64, 2^63 − 1 (rule R5). -/
abbrev maxInt64 : Int := 9223372036854775807

end Sys2Proof
end

