-- ==== Sys2Proof/Config.lean ====
section
/-! DEFINITION. The parameters of rule R4 that are fixed for every machine.

`MEM_SIZE` and `IMAGE` are chosen by the caller for each machine (rules R4, R140): `MEM_SIZE` is the field `memSize`
of `State`, and `IMAGE` is the argument of `State.create`. The spec leaves no value free (93_implementation_defined.md:
no behaviour is "any value"), so no uninterpreted constant stands here.
-/
namespace Sys2Proof.Config

/-- `XLEN`, the width of a cell and of every data value (rule R4). `PCLEN` and `RBLEN` are the same width (D2, D3). -/
abbrev xlen : Nat := 64

/-- The smallest `MEM_SIZE` of rule R4. Rule R142 lets a model admit the empty image too: log entry 5. -/
abbrev minMemSize : Nat := 1

/-- The largest `MEM_SIZE` of rule R4, 2^63 − 4: it keeps `pc + 4` inside Int64 after a successful fetch (rule R81). -/
abbrev maxMemSize : Nat := 9223372036854775804

/-- `NUM_OPERAND_MAX`, the largest operand count of any instruction (rule R4). -/
abbrev numOperandMax : Nat := 3

/-- The admitted values of `OVF_MODE`: 92_eei_decisions.md names `wrap` and does not admit it (D5). -/
inductive OvfMode where
  /-- An exact result outside Int64 raises ArithmeticOverflow and nothing is stored. -/
  | fault
deriving DecidableEq, Repr

/-- `OVF_MODE`: what Add, Multiply and AdjustRelative do with an exact result outside Int64 (rules R4, R123). -/
abbrev ovfMode : OvfMode := .fault

end Sys2Proof.Config
end

