-- ==== Sys2Proof/Syntax.lean ====
section
/-! DEFINITION. The decoded Instruction record: an operation tag and the addressing modes of its operands (rules R9, R64).

Operand words are no part of the record: they are fetched after the decode (rule R75), so a fault of the decoder comes
before a fault of their fetch (rule R124). One constructor per row of spec/opcode_table.json.
-/
namespace Sys2Proof

/-- How an operand's raw value becomes a value or an address (rule R54). -/
inductive Mode where
  /-- Digit 0: the raw value is an absolute memory index to dereference. -/
  | position
  /-- Digit 1: the raw value is the value itself. -/
  | immediate
  /-- Digit 2: the raw value plus the relative base is an absolute memory index to dereference. -/
  | relative
deriving DecidableEq, Repr

/-- The rows of the opcode table. Mode arguments stand in operand order (rule R50); `dst` is the written operand (rule R53). -/
inductive Instr where
  /-- Opcode 1, rule R90: `dst := a + b`. -/
  | add (a b dst : Mode)
  /-- Opcode 2, rule R91: `dst := a * b`. -/
  | multiply (a b dst : Mode)
  /-- Opcode 3, rule R92: `dst :=` the explicit input if one is left in this call, else the fallback signal. -/
  | saveInput (dst : Mode)
  /-- Opcode 4, rule R93: yields `src` and suspends. -/
  | output (src : Mode)
  /-- Opcode 5, rule R94: `pc := target` if `cond ≠ 0`. -/
  | jumpIfTrue (cond target : Mode)
  /-- Opcode 6, rule R95: `pc := target` if `cond = 0`. -/
  | jumpIfFalse (cond target : Mode)
  /-- Opcode 7, rule R96: `dst := 1` if `a < b`, else 0. -/
  | lessThan (a b dst : Mode)
  /-- Opcode 8, rule R97: `dst := 1` if `a = b`, else 0. -/
  | equals (a b dst : Mode)
  /-- Opcode 9, rule R98: `rb := rb + a`. -/
  | adjustRelative (a : Mode)
  /-- Opcode 99, rule R99. -/
  | halt
  /-- Any other opcode `opc` (0, 10 to 98), which acts as Halt (rules R57, R100). -/
  | unknownOperation (opc : Nat)
deriving DecidableEq, Repr

/-- The addressing modes of the operands, in operand order (rule R50). -/
def Instr.modes : Instr → List Mode
  | .add a b dst => [a, b, dst]
  | .multiply a b dst => [a, b, dst]
  | .saveInput dst => [dst]
  | .output src => [src]
  | .jumpIfTrue cond target => [cond, target]
  | .jumpIfFalse cond target => [cond, target]
  | .lessThan a b dst => [a, b, dst]
  | .equals a b dst => [a, b, dst]
  | .adjustRelative a => [a]
  | .halt => []
  | .unknownOperation _ => []

/-- The operand count (rule R52). -/
def Instr.arity (i : Instr) : Nat := i.modes.length

/-- The index of the destination operand, for the five operations that have one (rule R53). -/
def Instr.destination : Instr → Option Nat
  | .add _ _ _ => some 3
  | .multiply _ _ _ => some 3
  | .saveInput _ => some 1
  | .output _ => none
  | .jumpIfTrue _ _ => none
  | .jumpIfFalse _ _ => none
  | .lessThan _ _ _ => some 3
  | .equals _ _ _ => some 3
  | .adjustRelative _ => none
  | .halt => none
  | .unknownOperation _ => none

end Sys2Proof
end

