-- ==== Sys2Proof/WellFormed.lean ====
section
/-! DEFINITION. Which instruction records the decoder can answer: the checks of rules R57 and R59. -/
namespace Sys2Proof

/-- A destination operand is not in Immediate mode (rule R59). -/
def Mode.writable (m : Mode) : Bool := m != .immediate

/-- The opcodes that name no operation: 0 and 10 to 98 (rule R57). -/
def unknownOpcode (opc : Nat) : Bool := opc == 0 || (10 ≤ opc && opc ≤ 98)

/-- The records that some opcode word decodes to. -/
def Instr.wellFormed : Instr → Bool
  | .add _ _ dst => dst.writable
  | .multiply _ _ dst => dst.writable
  | .saveInput dst => dst.writable
  | .output _ => true
  | .jumpIfTrue _ _ => true
  | .jumpIfFalse _ _ => true
  | .lessThan _ _ dst => dst.writable
  | .equals _ _ dst => dst.writable
  | .adjustRelative _ => true
  | .halt => true
  | .unknownOperation opc => unknownOpcode opc

end Sys2Proof
end

