-- ==== Sys2Proof/Decode.lean ====
section
/-! DEFINITION. The Instruction Decoder (30_encoding.md): decimal digits in, an instruction or a named rejection out;
and the encoder (rule R65), written from the same tables. -/
namespace Sys2Proof

/-- What the decoder rejects a word with (rules R58 to R60, R62). -/
inductive DecodeFault where
  /-- The word is negative (rule R60). -/
  | negativeInstructionWord (w : Word)
  /-- Operand `k`'s mode digit `d` is above 2 (rule R58). -/
  | illegalMode (k d : Nat)
  /-- Destination operand `k` is in Immediate mode (rule R59). -/
  | immediateWriteTarget (k : Nat)
deriving DecidableEq, Repr

/-- The `k`-th decimal digit, counted from the units digit as digit 0 (rule R6). -/
def digit (k w : Nat) : Nat := w / 10 ^ k % 10

/-- The opcode: the two low decimal digits (rules R6, R51). -/
def opcodeOf (w : Nat) : Nat := w % 100

/-- The meaning of a mode digit (rule R54); digits 3 to 9 have none. -/
def modeOfDigit : Nat → Option Mode
  | 0 => some .position
  | 1 => some .immediate
  | 2 => some .relative
  | _ => none

/-- The digit of a mode (rule R54). -/
def Mode.digit : Mode → Nat
  | .position => 0
  | .immediate => 1
  | .relative => 2

/-- The mode of operand `k`, read from digit `k + 1` (rules R51, R58, R64). -/
def operandMode (w k : Nat) : Except DecodeFault Mode :=
  match modeOfDigit (Sys2Proof.digit (k + 1) w) with
  | some m => .ok m
  | none => .error (.illegalMode k (Sys2Proof.digit (k + 1) w))

/-- A destination operand's mode must not be Immediate; checked after all mode digits (rules R59, R64). -/
def checkDestination (k : Nat) (m : Mode) : Except DecodeFault Unit :=
  if m.writable then .ok () else .error (.immediateWriteTarget k)

/-- Format F3 (rules R51, R52): three mode digits, operand 3 the destination. -/
def decodeF3 (w : Nat) (mk : Mode → Mode → Mode → Instr) : Except DecodeFault Instr := do
  let m1 ← operandMode w 1
  let m2 ← operandMode w 2
  let m3 ← operandMode w 3
  checkDestination 3 m3
  return mk m1 m2 m3

/-- Format F2: two mode digits, both source operands. -/
def decodeF2 (w : Nat) (mk : Mode → Mode → Instr) : Except DecodeFault Instr := do
  let m1 ← operandMode w 1
  let m2 ← operandMode w 2
  return mk m1 m2

/-- Format F1 with a source operand. -/
def decodeF1Source (w : Nat) (mk : Mode → Instr) : Except DecodeFault Instr := do
  let m1 ← operandMode w 1
  return mk m1

/-- Format F1 with a destination operand (SaveInput). -/
def decodeF1Destination (w : Nat) (mk : Mode → Instr) : Except DecodeFault Instr := do
  let m1 ← operandMode w 1
  checkDestination 1 m1
  return mk m1

/-- The opcode map for a non-negative word (rules R56, R57). The numbers 3, 5, 6, 7, 8 are decision D1: log entry 1. -/
def decodeDigits (w : Nat) : Except DecodeFault Instr :=
  match opcodeOf w with
  | 1 => decodeF3 w .add
  | 2 => decodeF3 w .multiply
  | 3 => decodeF1Destination w .saveInput
  | 4 => decodeF1Source w .output
  | 5 => decodeF2 w .jumpIfTrue
  | 6 => decodeF2 w .jumpIfFalse
  | 7 => decodeF3 w .lessThan
  | 8 => decodeF3 w .equals
  | 9 => decodeF1Source w .adjustRelative
  | 99 => .ok .halt
  | opc => .ok (.unknownOperation opc)

/-- `Decode` of rule R64, total on Int64 (rule R62). -/
def decode (w : Word) : Except DecodeFault Instr :=
  if w.toInt < 0 then .error (.negativeInstructionWord w) else decodeDigits w.toNat

/-- The opcode number of an operation (rule R56). -/
def Instr.opcode : Instr → Nat
  | .add _ _ _ => 1
  | .multiply _ _ _ => 2
  | .saveInput _ => 3
  | .output _ => 4
  | .jumpIfTrue _ _ => 5
  | .jumpIfFalse _ _ => 6
  | .lessThan _ _ _ => 7
  | .equals _ _ _ => 8
  | .adjustRelative _ => 9
  | .halt => 99
  | .unknownOperation opc => opc

/-- The mode digits placed from the hundreds digit up; a mode the operation lacks counts as 0 (rule R65). -/
def modeDigits : List Mode → Nat
  | [] => 0
  | m :: ms => m.digit + 10 * modeDigits ms

/-- The canonical opcode number `opc + 100*m1 + 1000*m2 + 10000*m3` (rule R65). -/
def Instr.canonical (i : Instr) : Nat := i.opcode + 100 * modeDigits i.modes

/-- The canonical opcode word of an instruction (rule R65). -/
def encode (i : Instr) : Word := BitVec.ofNat 64 i.canonical

/-- All words of an instruction in memory order: the opcode word, then the operand words (rules R50, R66). -/
def assemble (i : Instr) (operands : List Word) : List Word := encode i :: operands

/-- The cells of an instruction given as one number: 64 bits a cell, the opcode word lowest (rule R50), and every
bit from `nbits` up zero. Four cells is the longest instruction (rule R63). -/
def wordsOfBits (nbits w : Nat) : List Word :=
  let v := w % 2 ^ nbits
  [BitVec.ofNat 64 v, BitVec.ofNat 64 (v / 2 ^ 64), BitVec.ofNat 64 (v / 2 ^ 128), BitVec.ofNat 64 (v / 2 ^ 192)]

/-- What the decoder reads from the instruction whose bits are `w`: it reads the opcode word alone (rule R64). -/
def decodeTableWord (nbits w : Nat) : Option Instr :=
  match decode ((wordsOfBits nbits w).headD 0) with
  | .ok i => some i
  | .error _ => none

end Sys2Proof
end

