-- ==== Sys2Proof/Machine/State.lean ====
section
/-! DEFINITION. The machine's state (10_state.md), its values after reset, and the reasons a step can stop.

The spec's state is the tuple `(M, pc, rb, fsm, xv, xin, sig, flt)` with the parameter `MEM_SIZE`. The model adds three
fields of its own, all of the transaction level of 47_step_fsm.md: whether a step call is in progress, the requests the
caller will make, and the results it has got back.
-/
namespace Sys2Proof.Machine

/-- The memory `M`: pairs of a cell index and the cell's value, in one canonical form (`Memory.wf`). A cell below
`memSize` that is not listed holds 0; this is how the list stands for the image, not a value the model chose
(every cell of `M` comes from the image, rule R24). The unit is the 64-bit cell: rule R31 has no smaller one. -/
abbrev Memory := List (Nat × Word)

/-- The canonical form: addresses strictly rising, and no listed cell equal to what an unlisted one reads as. -/
abbrev Memory.wf (m : Memory) : Prop := m.Pairwise (fun c d => c.1 < d.1) ∧ ∀ c ∈ m, c.2 ≠ 0

/-- The run state `fsm` (rule R15). -/
inductive RunState where
  /-- Executing instructions, or ready to before the first step call. -/
  | running
  /-- The last step call ended by executing an Output. -/
  | suspended
  /-- A Halt or an unknown opcode has executed. -/
  | halted
  /-- A fatal failure has happened. -/
  | faulted
deriving DecidableEq, Repr

/-- The fault causes (rule R120). -/
inductive FaultCode where
  /-- Code 1: an address used for an access is outside `0 .. MEM_SIZE−1`. -/
  | outOfRangeAccess
  /-- Code 2: the word fetched at `pc` is negative. -/
  | negativeInstructionWord
  /-- Code 3: the mode digit of an operand the operation has is 3 to 9. -/
  | illegalMode
  /-- Code 4: the mode digit of a destination operand is 1. -/
  | immediateWriteTarget
  /-- Code 5: the exact result of Add, Multiply or AdjustRelative is outside Int64. -/
  | arithmeticOverflow
deriving DecidableEq, Repr

/-- A fault as it is recorded and returned: `(code, k, value)`, the value an integer in ℤ (rules R17, R120). -/
structure FaultRecord where
  /-- The cause. -/
  code : FaultCode
  /-- The operand the fault belongs to, or 0. -/
  k : Nat
  /-- The offending address, word, digit or result. -/
  value : Int
deriving DecidableEq, Repr

/-- The caller's two operations (rule R101). -/
inductive Request where
  /-- `create(IMAGE)`: from here on the instance is a new machine made from this image (rules R111, R140). -/
  | create (image : List Word)
  /-- `step(explicit_input, fallback_signal)` (rule R102). -/
  | step (explicit : Option Word) (fallback : Word)
deriving DecidableEq, Repr

/-- The result of a step call (rule R102). -/
inductive CallResult where
  /-- `Some v`: an Output executed. -/
  | value (v : Word)
  /-- `None`: the machine halted, or was Halted already. -/
  | noValue
  /-- `Fault (code, k, value)`. -/
  | fault (f : FaultRecord)
deriving DecidableEq, Repr

/-- The state of one machine instance. -/
structure State where
  /-- `M` (rule R11). -/
  mem : Memory
  /-- `MEM_SIZE`, fixed by creation (rules R4, R11). -/
  memSize : Nat
  /-- The program counter: the cell index of the next opcode word (rule R12). -/
  pc : Word
  /-- The relative base (rule R14). -/
  rb : Word
  /-- The run state (rule R15). -/
  fsm : RunState
  /-- An explicit input is still to be consumed in this call (rule R16). -/
  xv : Bool
  /-- The explicit input of this call, meaningful while `xv` (rule R16). -/
  xin : Word
  /-- The fallback signal of this call (rule R16). -/
  sig : Word
  /-- The fault record (rule R17). -/
  flt : Option FaultRecord
  /-- The model's own: a step call is in progress (rules R111, R116: during a call `fsm` is Running, and so it is
  before the first call, so `fsm` alone does not tell). -/
  inCall : Bool
  /-- The model's own: what the caller does next, first request first (rules R101, R115). -/
  requests : List Request
  /-- The model's own: the results of the calls that have ended, first call first (rule R102). -/
  results : List CallResult
deriving DecidableEq, Repr

/-- Why a step stops with a host-level fault. The spec's own faults are not among them: rule R126 says what they do, so
they are next states. Both reasons below are states no run reaches (rules R17, R111), and stopping there is safe. -/
inductive Fault where
  /-- Raised by `step` in a state that is in a call and not Running. Rule R111: "During a call it is Running". Safe. -/
  | inCallButNotRunning
  /-- Raised by a step call on a machine that is Faulted and has no fault record. Rule R17: `flt ≠ None` exactly when
  `fsm = Faulted`. Safe. -/
  | faultedWithoutRecord
deriving DecidableEq, Repr

/-- Why the model has no next state for a step. -/
inductive Refusal where
  /-- Raised by `exec` for an instruction that has no meaning yet. Safe. -/
  | notModelled (mnemonic : String)
  /-- Raised by a `create` request whose image is longer than the parameter range of rule R4 allows. Safe. -/
  | imageTooLong
deriving DecidableEq, Repr

/-- The machine right after reset: `create` of the image of `Config.maxMemSize` zero cells, and no request made yet.
Rule R24 gives `pc`, `rb`, `fsm`, `xv` and `flt`. `MEM_SIZE` and `IMAGE` are the caller's (rule R4): the model's choice
is log entry 2. `xin` and `sig` are unspecified (rule R24): the model's choice of 0 is log entry 3. -/
def State.reset : State where
  mem := []
  memSize := Config.maxMemSize
  pc := 0
  rb := 0
  fsm := .running
  xv := false
  xin := 0
  sig := 0
  flt := none
  inCall := false
  requests := []
  results := []

end Sys2Proof.Machine
end

