-- ==== Sys2Proof/Machine/Ops.lean ====
section
/-! DEFINITION. The named operations over memory, the registers, the fault record and the end of a call, each written
once; the meanings and the step transaction are built from them. -/
namespace Sys2Proof.Machine

/-! ## Memory (20_memory.md) -/

/-- The value of cell `a` (rule R7, MemRead); an unlisted cell holds 0. -/
def Memory.read : Memory → Nat → Word
  | [], _ => 0
  | (b, u) :: rest, a => if a = b then u else Memory.read rest a

/-- The entry for cell `a` holding `v`, put before `rest`: none for 0, which an unlisted cell reads as. -/
def Memory.cons (a : Nat) (v : Word) (rest : Memory) : Memory := if v = 0 then rest else (a, v) :: rest

/-- Cell `a` becomes `v` and no other cell changes (rule R7, MemWrite). -/
def Memory.write : Memory → Nat → Word → Memory
  | [], a, v => Memory.cons a v []
  | (b, u) :: rest, a, v =>
    if a < b then Memory.cons a v ((b, u) :: rest)
    else if a = b then Memory.cons a v rest
    else (b, u) :: Memory.write rest a v

/-- The memory whose cells from `base` up hold the given values in order. -/
def Memory.ofCells (base : Nat) : List Word → Memory
  | [] => []
  | v :: vs => Memory.cons base v (Memory.ofCells (base + 1) vs)

/-- The cells from `base` up become the given values, one after the other. -/
def Memory.writeList (m : Memory) (base : Nat) : List Word → Memory
  | [] => m
  | v :: vs => Memory.writeList (m.write base v) (base + 1) vs

/-! ## Addresses -/

/-- `InRange(a)`: `a` is the index of a cell (rules R7, R32). The address is an integer, not a 64-bit value (R81). -/
abbrev State.InRange (s : State) (a : Int) : Prop := 0 ≤ a ∧ a < s.memSize

/-- The range check before every access: the cell's index, or OutOfRangeAccess for operand `k` (rules R32, R121). -/
def State.cellIndex (s : State) (k : Nat) (a : Int) : Except FaultRecord Nat :=
  if s.InRange a then .ok a.toNat else .error ⟨.outOfRangeAccess, k, a⟩

/-- A checked read of the cell at `a` on behalf of operand `k` (0: the opcode word). -/
def State.readCell (s : State) (k : Nat) (a : Int) : Except FaultRecord Word :=
  match s.cellIndex k a with
  | .ok t => .ok (s.mem.read t)
  | .error f => .error f

/-! ## Register and memory updates -/

/-- The store of a meaning whose target cell has been checked (rule R79). -/
def State.writeCell (s : State) (t : Nat) (v : Word) : State := { s with mem := s.mem.write t v }

/-- `pc <- pc + n` (rule R13). The sum cannot leave Int64 after a successful fetch (rules R12, R81). -/
def State.advance (s : State) (n : Nat) : State := { s with pc := s.pc + BitVec.ofNat 64 n }

/-- `pc <- v`: any Int64 may be written; the range check is at the next fetch (rules R12, R94). -/
def State.jump (s : State) (v : Word) : State := { s with pc := v }

/-- `rb <- v` (rule R98). -/
def State.setRb (s : State) (v : Word) : State := { s with rb := v }

/-- The value the next SaveInput of this call stores (rule R92). -/
def State.inputValue (s : State) : Word := if s.xv then s.xin else s.sig

/-- The explicit input, if there was one, is consumed (rule R92). -/
def State.consumeInput (s : State) : State := { s with xv := false }

/-! ## The end of a call, and fault entry -/

/-- A call that ran instructions returns `r`: `xv` is cleared, `xin` and `sig` stay (rule R109). -/
def State.endCall (s : State) (fsm : RunState) (r : CallResult) : State :=
  { s with fsm := fsm, xv := false, inCall := false, results := s.results ++ [r] }

/-- The call answers `r` without running an instruction: nothing but the result changes (rule R108). -/
def State.answer (s : State) (r : CallResult) : State := { s with results := s.results ++ [r] }

/-- Suspension on Output (rules R103, R105). -/
def State.suspend (s : State) (v : Word) : State := s.endCall .suspended (.value v)

/-- Halting (rules R103, R106). -/
def State.stop (s : State) : State := s.endCall .halted .noValue

/-- Taking a fault (rules R103, R107, R126): the record is kept, the machine becomes Faulted, the call returns the
fault. `M`, `pc` and `rb` are those the faulting instruction found (rule R127). There is no handler and no return from
a fault (rule R128). -/
def State.takeFault (s : State) (f : FaultRecord) : State :=
  { s.endCall .faulted (.fault f) with flt := some f }

/-- The end of an instruction started in `s`: its new state, or the fault one of its phases raised, taken in the state
the instruction started in (rules R70, R127). -/
def conclude (s : State) (r : Except FaultRecord State) : Host.Outcome State Fault Refusal :=
  match r with
  | .ok t => .next t
  | .error f => .next (s.takeFault f)

/-! ## Fault codes (rule R120) -/

/-- The numeric code of a fault cause. -/
def FaultCode.number : FaultCode → Nat
  | .outOfRangeAccess => 1
  | .negativeInstructionWord => 2
  | .illegalMode => 3
  | .immediateWriteTarget => 4
  | .arithmeticOverflow => 5

/-- The record of a decode fault: the columns k and value of rule R120's table. -/
def recordOfDecodeFault : DecodeFault → FaultRecord
  | .negativeInstructionWord w => ⟨.negativeInstructionWord, 0, w.toInt⟩
  | .illegalMode k d => ⟨.illegalMode, k, d⟩
  | .immediateWriteTarget k => ⟨.immediateWriteTarget, k, 1⟩

/-! ## Creation (rule R140) -/

/-- `create(IMAGE)`. `xin` and `sig` are unspecified (rule R24): log entry 3. -/
def State.create (image : List Word) : State where
  mem := Memory.ofCells 0 image
  memSize := image.length
  pc := 0
  rb := 0
  fsm := .running
  xv := false
  xin := 0
  sig := 0
  flt := none
  inCall := false
  requests := []
  results := []

end Sys2Proof.Machine
end

