-- ==== Sys2Proof/Machine/Flags.lean ====
section
/-! DEFINITION. What stands in the place of flags. The machine has no flag and no condition code (rule R18): a
comparison writes 1 or 0 to a cell, a jump tests an operand's value, and an overflow is a fault. -/
namespace Sys2Proof.Machine

/-- The truth value a comparison stores: exactly 1 or 0 (rules R96, R97). -/
def truthValue (p : Bool) : Word := if p then 1 else 0

/-- The exact integer `x` lies in Int64 (rule R5). -/
abbrev FitsInt64 (x : Int) : Prop := minInt64 ≤ x ∧ x ≤ maxInt64

/-- The range check before a result is stored (rule R123): the value, or ArithmeticOverflow with the exact result.
`OVF_MODE` has the one value `fault` (D5). -/
def narrow (x : Int) : Except FaultRecord Word :=
  match Config.ovfMode with
  | .fault => if FitsInt64 x then .ok (BitVec.ofInt 64 x) else .error ⟨.arithmeticOverflow, 0, x⟩

/-- The condition of the jumps: any value but 0 (rule R94). -/
def isTrue (v : Word) : Bool := v != 0

end Sys2Proof.Machine
end

