-- ==== Sys2Proof/Machine/Operands.lean ====
section
/-! DEFINITION. Operand-word fetch and the Address Resolver (rules R75 to R78, R81). -/
namespace Sys2Proof.Machine

/-- Phase 3 for operand `k`: its raw value, from cell `pc + k` (rule R75). -/
def operandWord (s : State) (k : Nat) : Except FaultRecord Word := s.readCell k (s.pc.toInt + k)

/-- The address an operand names, exact in ℤ (rules R54, R76, R77, R81); an Immediate operand names none. -/
def effectiveAddress (s : State) (m : Mode) (raw : Word) : Option Int :=
  match m with
  | .position => some raw.toInt
  | .immediate => none
  | .relative => some (raw.toInt + s.rb.toInt)

/-- The value of source operand `k` (rule R76, ReadOperand). -/
def readOperand (s : State) (k : Nat) (m : Mode) (raw : Word) : Except FaultRecord Word :=
  match effectiveAddress s m raw with
  | none => .ok raw
  | some a => s.readCell k a

/-- The cell of destination operand `k` (rule R77, WriteTarget). The decoder has already refused an Immediate
destination (rule R59), so that branch is for records no word decodes to, and it takes the same fault. -/
def writeTarget (s : State) (k : Nat) (m : Mode) (raw : Word) : Except FaultRecord Nat :=
  match effectiveAddress s m raw with
  | none => .error ⟨.immediateWriteTarget, k, 1⟩
  | some a => s.cellIndex k a

/-- Phases 3 and 4 for one source operand. -/
def resolveSource (s : State) (m1 : Mode) : Except FaultRecord Word := do
  let r1 ← operandWord s 1
  readOperand s 1 m1 r1

/-- Phases 3 and 4 for one destination operand. -/
def resolveDestination (s : State) (m1 : Mode) : Except FaultRecord Nat := do
  let r1 ← operandWord s 1
  writeTarget s 1 m1 r1

/-- Phases 3 and 4 for two source operands: both words first, then both values (rules R75, R78). -/
def resolveTwo (s : State) (m1 m2 : Mode) : Except FaultRecord (Word × Word) := do
  let r1 ← operandWord s 1
  let r2 ← operandWord s 2
  let v1 ← readOperand s 1 m1 r1
  let v2 ← readOperand s 2 m2 r2
  return (v1, v2)

/-- Phases 3 and 4 for two sources and a destination. -/
def resolveThree (s : State) (m1 m2 m3 : Mode) : Except FaultRecord (Word × Word × Nat) := do
  let r1 ← operandWord s 1
  let r2 ← operandWord s 2
  let r3 ← operandWord s 3
  let v1 ← readOperand s 1 m1 r1
  let v2 ← readOperand s 2 m2 r2
  let t ← writeTarget s 3 m3 r3
  return (v1, v2, t)

/-- Format F3 as a whole: resolve, compute the result from the two values, store it, advance by 4 (rules R79, R13). -/
def storeResult (s : State) (m1 m2 m3 : Mode) (f : Word → Word → Except FaultRecord Word) :
    Host.Outcome State Fault Refusal :=
  conclude s do
    let (v1, v2, t) ← resolveThree s m1 m2 m3
    let v ← f v1 v2
    return (s.writeCell t v).advance 4

/-- Format F2 as a whole: `pc` becomes the target's value when the condition holds, else advances by 3 (R94, R95). -/
def jumpWhen (s : State) (m1 m2 : Mode) (p : Word → Bool) : Host.Outcome State Fault Refusal :=
  conclude s do
    let (v1, v2) ← resolveTwo s m1 m2
    return if p v1 then s.jump v2 else s.advance 3

end Sys2Proof.Machine
end

