-- ==== Sys2Proof/Machine/Arithmetic.lean ====
section
/-! DEFINITION. Add and Multiply (41_arithmetic.md): exact in ℤ, then range-checked, then stored. -/
namespace Sys2Proof.Machine

/-- Rule R90. -/
def execAdd (a b dst : Mode) (s : State) : Host.Outcome State Fault Refusal :=
  storeResult s a b dst fun v1 v2 => narrow (v1.toInt + v2.toInt)

/-- Rule R91. -/
def execMultiply (a b dst : Mode) (s : State) : Host.Outcome State Fault Refusal :=
  storeResult s a b dst fun v1 v2 => narrow (v1.toInt * v2.toInt)

end Sys2Proof.Machine
end

