-- ==== Sys2Proof/Machine/Compare.lean ====
section
/-! DEFINITION. LessThan and Equals (44_compare.md). -/
namespace Sys2Proof.Machine

/-- Rule R96: the order of the integers. -/
def execLessThan (a b dst : Mode) (s : State) : Host.Outcome State Fault Refusal :=
  storeResult s a b dst fun v1 v2 => .ok (truthValue (decide (v1.toInt < v2.toInt)))

/-- Rule R97: equality of the full values. -/
def execEquals (a b dst : Mode) (s : State) : Host.Outcome State Fault Refusal :=
  storeResult s a b dst fun v1 v2 => .ok (truthValue (decide (v1 = v2)))

end Sys2Proof.Machine
end

