-- ==== Sys2Proof/Machine/Halt.lean ====
section
/-! DEFINITION. Halt and the unknown-operation fallback (46_halt.md). Neither fetches an operand (rule R73). -/
namespace Sys2Proof.Machine

/-- Rule R99: `pc` stays on the Halt word. -/
def execHalt (s : State) : Host.Outcome State Fault Refusal := .next s.stop

/-- Rule R100: an unknown opcode acts as Halt and leaves no trace of having been one. -/
def execUnknownOperation (_opc : Nat) (s : State) : Host.Outcome State Fault Refusal := .next s.stop

end Sys2Proof.Machine
end

