-- ==== Sys2Proof/Machine/InputOutput.lean ====
section
/-! DEFINITION. SaveInput and Output (42_io.md). -/
namespace Sys2Proof.Machine

/-- Rule R92: on a fault nothing is written and the explicit input is not consumed by the instruction (the end of the
call clears `xv` all the same, rule R109). -/
def execSaveInput (dst : Mode) (s : State) : Host.Outcome State Fault Refusal :=
  conclude s do
    let t ← resolveDestination s dst
    return (s.consumeInput.writeCell t s.inputValue).advance 2

/-- Rule R93: `pc` moves past the instruction, then the call returns the operand's value and the machine is Suspended. -/
def execOutput (src : Mode) (s : State) : Host.Outcome State Fault Refusal :=
  conclude s do
    let v ← resolveSource s src
    return (s.advance 2).suspend v

end Sys2Proof.Machine
end

