-- ==== Sys2Proof/Machine/Jumps.lean ====
section
/-! DEFINITION. JumpIfTrue and JumpIfFalse (43_jumps.md). -/
namespace Sys2Proof.Machine

/-- Rule R94. -/
def execJumpIfTrue (cond target : Mode) (s : State) : Host.Outcome State Fault Refusal :=
  jumpWhen s cond target fun v => isTrue v

/-- Rule R95. -/
def execJumpIfFalse (cond target : Mode) (s : State) : Host.Outcome State Fault Refusal :=
  jumpWhen s cond target fun v => !isTrue v

end Sys2Proof.Machine
end

