-- ==== Sys2Proof/Machine/RelativeBase.lean ====
section
/-! DEFINITION. AdjustRelative (45_relative_base.md), the one writer of `rb`. -/
namespace Sys2Proof.Machine

/-- Rule R98: a Relative operand is read through the old `rb` (rule R78). -/
def execAdjustRelative (a : Mode) (s : State) : Host.Outcome State Fault Refusal :=
  conclude s do
    let v ← resolveSource s a
    let b ← narrow (s.rb.toInt + v.toInt)
    return (s.setRb b).advance 2

end Sys2Proof.Machine
end

