-- ==== Sys2Proof/Machine/Dispatch.lean ====
section
/-! DEFINITION. Phases 3 to 5 of the cycle, one arm per row of the opcode table (rule R80). -/
namespace Sys2Proof.Machine

def exec (i : Instr) (s : State) : Host.Outcome State Fault Refusal :=
  match i with
  | .add a b dst => Sys2Proof.Machine.execAdd a b dst s
  | .multiply a b dst => Sys2Proof.Machine.execMultiply a b dst s
  | .saveInput dst => Sys2Proof.Machine.execSaveInput dst s
  | .output src => Sys2Proof.Machine.execOutput src s
  | .jumpIfTrue cond target => Sys2Proof.Machine.execJumpIfTrue cond target s
  | .jumpIfFalse cond target => Sys2Proof.Machine.execJumpIfFalse cond target s
  | .lessThan a b dst => Sys2Proof.Machine.execLessThan a b dst s
  | .equals a b dst => Sys2Proof.Machine.execEquals a b dst s
  | .adjustRelative a => Sys2Proof.Machine.execAdjustRelative a s
  | .halt => Sys2Proof.Machine.execHalt s
  | .unknownOperation opc => Sys2Proof.Machine.execUnknownOperation opc s

end Sys2Proof.Machine
end

