-- ==== Sys2Proof/Machine/Cycle.lean ====
section
/-! DEFINITION. One instruction (rule R80, ExecOne): fetch, decode, and the execution of what was decoded. -/
namespace Sys2Proof.Machine

/-- Phases 1 and 2: the instruction at `pc`, or the fault that stops it (rules R71, R72). -/
def fetchDecode (s : State) : Except FaultRecord Instr :=
  match s.readCell 0 s.pc.toInt with
  | .error f => .error f
  | .ok w =>
    match decode w with
    | .ok i => .ok i
    | .error d => .error (recordOfDecodeFault d)

/-- `ExecOne` together with what the step transaction does with its outcome (rules R80, R103). -/
def execOne (s : State) : Host.Outcome State Fault Refusal :=
  match fetchDecode s with
  | .ok i => exec i s
  | .error f => .next (s.takeFault f)

/-- The cells of one instruction stored where the next fetch reads: the host's load of a word for `withFetchWord`.
`pc` is moved only when no instruction can stand at it. -/
def State.placeInstruction (s : State) (ws : List Word) : State :=
  let base := if 0 ≤ s.pc.toInt ∧ s.pc.toInt + ws.length ≤ Config.maxMemSize then s.pc.toNat else 0
  { s with
    mem := s.mem.writeList base ws
    memSize := max s.memSize (base + ws.length)
    pc := BitVec.ofNat 64 base }

/-- The machine inside a step call, so that the next step runs an instruction: a call in progress goes on, and else
the call `step(None, sig)` has just begun (rule R104). -/
def State.insideCall (s : State) : State :=
  if s.inCall then { s with fsm := .running, flt := none }
  else { s with fsm := .running, flt := none, xv := false, inCall := true }

end Sys2Proof.Machine
end

