-- ==== Sys2Proof/Machine/Transaction.lean ====
section
/-! DEFINITION. The two operations of the caller (47_step_fsm.md, 70_reset_and_hazards.md) and its view of the machine. -/
namespace Sys2Proof.Machine

/-- The caller's inputs are latched and the machine runs (rules R103, R104). Without an explicit input `xin` keeps its
old value, which nothing reads. -/
def State.latch (s : State) (explicit : Option Word) (fallback : Word) : State :=
  { s with
    xv := explicit.isSome
    xin := explicit.getD s.xin
    sig := fallback
    fsm := .running
    inCall := true }

/-- The start of `step(explicit, fallback)`, by run state (rules R103, R104, R108). -/
def beginCall (s : State) (explicit : Option Word) (fallback : Word) : Host.Outcome State Fault Refusal :=
  match s.fsm with
  | .running => .next (s.latch explicit fallback)
  | .suspended => .next (s.latch explicit fallback)
  | .halted => .next (s.answer .noValue)
  | .faulted =>
    match s.flt with
    | some f => .next (s.answer (.fault f))
    | none => .fault .faultedWithoutRecord

/-- `create(image)` as a request: the instance is a new machine; the caller's own lists go on (rules R111, R140). -/
def recreate (s : State) (image : List Word) : Host.Outcome State Fault Refusal :=
  if image.length ≤ Config.maxMemSize then
    .next { State.create image with requests := s.requests, results := s.results }
  else .refused .imageTooLong

/-- Between calls: the caller's next request is served; with none, the machine waits as it is (rule R137). -/
def serveCaller (s : State) : Host.Outcome State Fault Refusal :=
  match s.requests with
  | [] => .next s
  | .create image :: rest => recreate { s with requests := rest } image
  | .step explicit fallback :: rest => beginCall { s with requests := rest } explicit fallback

/-- One transition: an instruction inside a call, a request between calls (rules R8, R103, R116). -/
def transition (s : State) : Host.Outcome State Fault Refusal :=
  match s.inCall, s.fsm with
  | false, _ => serveCaller s
  | true, .running => execOne s
  | true, _ => .fault .inCallButNotRunning

/-- The caller's read-only view of a machine between calls (rule R26). -/
structure Observation where
  /-- `M`. -/
  mem : Memory
  /-- `MEM_SIZE`. -/
  memSize : Nat
  /-- The program counter. -/
  pc : Word
  /-- The relative base. -/
  rb : Word
  /-- The run state. -/
  fsm : RunState
  /-- The fault record. -/
  flt : Option FaultRecord
deriving DecidableEq, Repr

/-- What the caller sees: `M`, `pc`, `rb`, `fsm` and `flt` between transactions, and nothing during one (rule R26). -/
def State.observe (s : State) : Option Observation :=
  if s.inCall then none else some ⟨s.mem, s.memSize, s.pc, s.rb, s.fsm, s.flt⟩

end Sys2Proof.Machine
end

