-- ==== Sys2Proof/Machine/Step.lean ====
section
/-! DEFINITION. The step function, and how a word is placed where it fetches. -/
namespace Sys2Proof.Machine

/-- One transition of the machine (rule R8). -/
def step (s : State) : Host.Outcome State Fault Refusal := transition s

/-- `s` with the instruction whose bits are `w` stored where `step` fetches, inside a call, so that the very next step
runs it. A program is otherwise loaded by `create`: log entry 6. -/
def State.withFetchWord (s : State) (nbits w : Nat) : State :=
  (s.placeInstruction (wordsOfBits nbits w)).insideCall

end Sys2Proof.Machine
end

