-- ==== Sys2Proof/Machine/Ports.lean ====
section
/-! DEFINITION. The signal rendering of rule R113 (D15): the settings of the ports that stand for a request and for a
result. It adds no behaviour: `step` reads the requests and writes the results, not these signals. A port whose value the
rule does not state is left open, so both readings are relations. -/
namespace Sys2Proof.Machine

/-- The suggested 2-bit encoding of the run state (rule R15). -/
def RunState.code : RunState → BitVec 2
  | .running => 0
  | .suspended => 1
  | .halted => 2
  | .faulted => 3

/-- The input ports. The port `mem_size` is the length of `image[]`. -/
structure RequestPorts where
  /-- `create_req`. -/
  createReq : Bool
  /-- `image[]`. -/
  image : List Word
  /-- `step_req`. -/
  stepReq : Bool
  /-- `xin_valid`. -/
  xinValid : Bool
  /-- `xin`. -/
  xin : Word
  /-- `sig`. -/
  sig : Word
deriving DecidableEq, Repr

/-- The output ports. -/
structure ResultPorts where
  /-- `step_done`. -/
  stepDone : Bool
  /-- `out_valid`. -/
  outValid : Bool
  /-- `out_value`. -/
  outValue : Word
  /-- `fault_valid`. -/
  faultValid : Bool
  /-- `fault_code`. -/
  faultCode : BitVec 3
  /-- `fault_k`. -/
  faultK : BitVec 2
  /-- `fault_value`. -/
  faultValue : BitVec 128
deriving DecidableEq, Repr

/-- The request the ports ask for. What both request ports at once ask for, rule R113 does not say. -/
def RequestPorts.Asks (p : RequestPorts) (r : Request) : Prop :=
  (p.createReq = true ∧ p.stepReq = false ∧ r = .create p.image) ∨
  (p.createReq = false ∧ p.stepReq = true ∧ r = .step (if p.xinValid then some p.xin else none) p.sig)

/-- A transaction is in progress: a request has been accepted and the transaction has not ended (rules R113, R116). An
accepted request stands in `requests` until the step that begins it. -/
def State.transacting (s : State) : Bool := s.inCall || !s.requests.isEmpty

/-- The machine is in the hands of the ports: at most one transaction has been accepted and has not ended. -/
def State.PortDriven (s : State) : Prop := s.requests.length + s.inCall.toNat ≤ 1

/-- `t` is `s` once the request ports have been sampled. From the acceptance of a request to the end of its transaction
they are ignored (rule R116). -/
def State.Sampled (s : State) (p : RequestPorts) (t : State) : Prop :=
  (s.transacting = true ∧ t = s) ∨
  (s.transacting = false ∧ p.createReq = false ∧ p.stepReq = false ∧ t = s) ∨
  (s.transacting = false ∧ ∃ r, p.Asks r ∧ t = { s with requests := [r] })

/-- The ports show the result `r` of a transaction that has ended (rules R102, R113). -/
def ResultPorts.Shows (p : ResultPorts) (r : CallResult) : Prop :=
  p.stepDone = true ∧
  match r with
  | .value v => p.outValid = true ∧ p.faultValid = false ∧ p.outValue = v
  | .noValue => p.outValid = false ∧ p.faultValid = false
  | .fault f => p.outValid = false ∧ p.faultValid = true ∧ p.faultCode.toNat = f.code.number ∧ p.faultK.toNat = f.k ∧
      p.faultValue.toInt = f.value

/-- The result ports of a machine in state `s`. `step_done` is down while a transaction is in progress and on a machine
that no step call has ended on yet (Running outside a call, rule R111); otherwise the ports show the result of the last
call, and stay so until the next request is accepted (log entry 17). -/
def ResultPorts.DrivenBy (p : ResultPorts) (s : State) : Prop :=
  if s.transacting = true ∨ s.fsm = .running then p.stepDone = false
  else ∃ r, s.results.getLast? = some r ∧ p.Shows r

/-- The ports `obs_*`: the caller's view (rule R26), between transactions. -/
def State.obsPorts (s : State) : Option Observation := if s.transacting then none else s.observe

end Sys2Proof.Machine
end

