-- ==== Sys2Proof/Machine/Instances.lean ====
section
/-! DEFINITION. Several machines (rules R22, R114): one whole state per instance, and no other state. The order in which
the instances are stepped is the caller's (rule R3) and is an argument here. -/
namespace Sys2Proof.Machine

/-- One transition of a machine, the machine left as it is where `step` has no next state. -/
def stepOrStay (s : State) : State :=
  match step s with
  | .next t => t
  | .fault _ => s
  | .refused _ => s

/-- `n` transitions of one machine. -/
def stepMany : Nat → State → State
  | 0, s => s
  | n + 1, s => stepMany n (stepOrStay s)

/-- One transition of instance `i`. -/
def stepInstance (ms : List State) (i : Nat) : List State := ms.modify i stepOrStay

/-- The instances stepped in the order the caller gives. -/
def runSchedule (ms : List State) (order : List Nat) : List State := order.foldl stepInstance ms

end Sys2Proof.Machine
end

