-- ==== Sys2Proof/Safety.lean ====
section
/-! DEFINITION. The terms claims are stated in: what an operand reads and where it stores, what a completed
instruction leaves alone, the invariant of the machine, a successful run, and the latches no run looks at. -/
namespace Sys2Proof.Machine

/-! ## Operands, in terms of reads of the memory -/

/-- The raw value of operand `k`: the word at `pc + k` (rule R75). -/
def rawOperand (s : State) (k : Nat) : Word := s.mem.read (s.pc.toInt + k).toNat

/-- Operand `k` can be fetched and read through mode `m`: its word, and the cell it names if any, are inside memory. -/
abbrev SourceReadable (s : State) (k : Nat) (m : Mode) : Prop :=
  s.InRange (s.pc.toInt + k) ∧ ∀ a ∈ effectiveAddress s m (rawOperand s k), s.InRange a

/-- The value of source operand `k` through mode `m` (rule R76), where it is readable. -/
def sourceValue (s : State) (k : Nat) (m : Mode) : Word :=
  match effectiveAddress s m (rawOperand s k) with
  | none => rawOperand s k
  | some a => s.mem.read a.toNat

/-- Destination operand `k` can be fetched, and through mode `m` it names the cell `a` inside memory (rule R77). -/
abbrev DestinationAt (s : State) (k : Nat) (m : Mode) (a : Int) : Prop :=
  s.InRange (s.pc.toInt + k) ∧ effectiveAddress s m (rawOperand s k) = some a ∧ s.InRange a

/-- The integer a storing instruction stores when it raises no fault (rules R90 to R92, R96, R97). -/
def storedValue (s : State) : Instr → Option Int
  | .add a b _ => some ((sourceValue s 1 a).toInt + (sourceValue s 2 b).toInt)
  | .multiply a b _ => some ((sourceValue s 1 a).toInt * (sourceValue s 2 b).toInt)
  | .saveInput _ => some (if s.xv then s.xin.toInt else s.sig.toInt)
  | .output _ => none
  | .jumpIfTrue _ _ => none
  | .jumpIfFalse _ _ => none
  | .lessThan a b _ => some (if (sourceValue s 1 a).toInt < (sourceValue s 2 b).toInt then 1 else 0)
  | .equals a b _ => some (if (sourceValue s 1 a).toInt = (sourceValue s 2 b).toInt then 1 else 0)
  | .adjustRelative _ => none
  | .halt => none
  | .unknownOperation _ => none

/-! ## Frames -/

/-- `t` is `s` after an instruction that stores the integer `v` in the cell at `a`, moves `pc` by `n` and changes
nothing else: no other cell, no other register, no latch, no part of the call. -/
def StoresAndAdvances (s t : State) (a v : Int) (n : Nat) : Prop :=
  t = { s with mem := t.mem, pc := t.pc } ∧ t.pc.toInt = s.pc.toInt + n ∧
    (t.mem.read a.toNat).toInt = v ∧ ∀ b : Nat, b ≠ a.toNat → t.mem.read b = s.mem.read b

/-- `t` is `s` after the fault `f` of the instruction at `pc` (rules R107, R126, R127): the record, the run state, the
end of the call and its result, and nothing else. -/
def FaultTaken (s t : State) (f : FaultRecord) : Prop :=
  t = { s with flt := some f, fsm := .faulted, xv := false, inCall := false, results := s.results ++ [.fault f] }

/-! ## Faults (rule R120) -/

/-- What a fault record can hold on a machine of `memSize` cells: the columns k and value of rule R120's table. -/
def FaultRecord.Legal (f : FaultRecord) (memSize : Nat) : Prop :=
  match f.code with
  | .outOfRangeAccess => f.k ≤ Config.numOperandMax ∧ ¬(0 ≤ f.value ∧ f.value < memSize)
  | .negativeInstructionWord => f.k = 0 ∧ minInt64 ≤ f.value ∧ f.value < 0
  | .illegalMode => (1 ≤ f.k ∧ f.k ≤ Config.numOperandMax) ∧ 3 ≤ f.value ∧ f.value ≤ 9
  | .immediateWriteTarget => (f.k = 1 ∨ f.k = 3) ∧ f.value = 1
  | .arithmeticOverflow => f.k = 0 ∧ ¬FitsInt64 f.value

/-- The fault the instruction at `pc` raises from `M`, `pc` and `rb` as they are, if it raises one. -/
def faultRaised (s : State) : Option FaultRecord :=
  match execOne { s with flt := none } with
  | .next t => t.flt
  | .fault _ => none
  | .refused _ => none

/-! ## The invariant -/

/-- Halt, or an opcode that acts as Halt (rule R100). -/
def actsAsHalt : Instr → Bool
  | .add _ _ _ => false
  | .multiply _ _ _ => false
  | .saveInput _ => false
  | .output _ => false
  | .jumpIfTrue _ _ => false
  | .jumpIfFalse _ _ => false
  | .lessThan _ _ _ => false
  | .equals _ _ _ => false
  | .adjustRelative _ => false
  | .halt => true
  | .unknownOperation _ => true

/-- What every step keeps. -/
structure State.Inv (s : State) : Prop where
  /-- Memory is in its canonical form. -/
  memory_canonical : Memory.wf s.mem
  /-- Every listed cell is one of the machine's (rule R11). -/
  cells_inside : ∀ c ∈ s.mem, c.1 < s.memSize
  /-- `MEM_SIZE` is within the parameter's upper bound (rule R4). -/
  size_legal : s.memSize ≤ Config.maxMemSize
  /-- During a call the machine is Running (rule R111). -/
  call_is_running : s.inCall = true → s.fsm = .running
  /-- There is a fault record exactly when the machine is Faulted (rule R17). -/
  record_iff_faulted : s.flt ≠ none ↔ s.fsm = .faulted
  /-- A fault record is one that rule R120's table has. -/
  record_legal : ∀ f ∈ s.flt, f.Legal s.memSize
  /-- Between calls no explicit input is left (rules R16, R109). -/
  no_input_kept : s.inCall = false → s.xv = false
  /-- Running between calls is the state before the first call (rule R111): `pc` and `rb` are those of creation. -/
  fresh_if_waiting : s.inCall = false → s.fsm = .running → s.pc = 0 ∧ s.rb = 0
  /-- In a Halted machine `pc` still addresses the word that halted it (rules R99, R106). -/
  halted_at_halt : s.fsm = .halted → ∃ i, fetchDecode s = .ok i ∧ actsAsHalt i = true

/-! ## Requests and calls -/

/-- A request the model serves: an image within the parameter range of rule R4 (or empty, log entry 5). -/
def Request.Legal : Request → Prop
  | .create image => image.length ≤ Config.maxMemSize
  | .step _ _ => True

/-- The request is a step call. -/
def Request.isStep : Request → Bool
  | .create _ => false
  | .step _ _ => true

/-- The step calls asked for or in progress and not answered yet. -/
def State.openCalls (s : State) : Nat := s.requests.countP Request.isStep + s.inCall.toNat

/-- The run is over and it ended normally with `pc` at `a` (rules R112, R129, R149). -/
def State.CompletedAt (s : State) (a : Int) : Prop := s.fsm = .halted ∧ s.flt = none ∧ s.pc.toInt = a

/-! ## Latches that nothing reads (rules R16, R27) -/

/-- The two states differ at most in latches that no instruction can read: any of the three between calls, and `xin`
during a call that has no explicit input left. -/
structure SameButDeadLatches (s t : State) : Prop where
  /-- All that is not a latch is the same. -/
  rest : t = { s with xv := t.xv, xin := t.xin, sig := t.sig }
  /-- The latches a call can read are the same. -/
  live : s.inCall = true → t.xv = s.xv ∧ t.sig = s.sig ∧ (s.xv = true → t.xin = s.xin)

end Sys2Proof.Machine
end

