-- ==== Sys2Proof/Certificates/Slice0/Obligations.lean ====
section
/-! DEFINITION. The statements for the provers, and the reference machine one of them compares the model with. -/

/-! ## A second reading of rule R80

`ExecOne` transcribed from its pseudocode over ℤ: memory is a function, an operand is looked up by its number, and the
decimal digits are taken with the integers' own `div` and `mod`. It shares nothing with the model but the names of the
fault causes. -/
namespace Sys2Proof.Reference

/-- The part of the state tuple `ExecOne` reads and writes. -/
structure Tuple where
  M : Int → Int
  size : Int
  pc : Int
  rb : Int
  xv : Bool
  xin : Int
  sig : Int

/-- The outcomes of rule R70. -/
inductive Outcome where
  | goesOn (m : Tuple)
  | yields (v : Int) (m : Tuple)
  | stops
  | raises (code : Machine.FaultCode) (k : Nat) (value : Int)

/-- `digit_k(w)` (rule R6). -/
def digit (k : Nat) (w : Int) : Int := w / 10 ^ k % 10

/-- The arity of an opcode (rules R52, R56, R57). -/
def arity (opc : Int) : Nat :=
  if opc = 1 ∨ opc = 2 ∨ opc = 7 ∨ opc = 8 then 3
  else if opc = 5 ∨ opc = 6 then 2
  else if opc = 3 ∨ opc = 4 ∨ opc = 9 then 1
  else 0

/-- Operand `k` is the destination of an opcode (rule R53). -/
def isDestination (opc : Int) (k : Nat) : Bool :=
  (k == 3 && (opc == 1 || opc == 2 || opc == 7 || opc == 8)) || (k == 1 && opc == 3)

/-- `InRange(a)` (rule R7). -/
def Tuple.inRange (m : Tuple) (a : Int) : Bool := decide (0 ≤ a ∧ a < m.size)

/-- The mode digit of operand `k` (rule R51). -/
def Tuple.mode (m : Tuple) (k : Nat) : Int := digit (k + 1) (m.M m.pc)

/-- The raw value of operand `k` (rule R75). -/
def Tuple.raw (m : Tuple) (k : Nat) : Int := m.M (m.pc + k)

/-- The address a Position or Relative operand names (rules R76, R77). -/
def Tuple.address (m : Tuple) (k : Nat) : Int := if m.mode k = 2 then m.raw k + m.rb else m.raw k

/-- The value of a source operand (rule R76). -/
def Tuple.value (m : Tuple) (k : Nat) : Int := if m.mode k = 1 then m.raw k else m.M (m.address k)

/-- The lowest of the operands `1 .. n` for which the check fails. -/
def firstBad (n : Nat) (bad : Nat → Bool) : Option Nat := [1, 2, 3].find? fun k => decide (k ≤ n) && bad k

/-- `M[t] <- x` (rule R7). -/
def Tuple.put (m : Tuple) (t x : Int) : Tuple := { m with M := fun a => if a = t then x else m.M a }

/-- A result checked against Int64 (rule R123). -/
def checked (x : Int) (m : Tuple) : Outcome :=
  if -2 ^ 63 ≤ x ∧ x ≤ 2 ^ 63 - 1 then .goesOn m else .raises .arithmeticOverflow 0 x

/-- Phase 5 (rule R80). -/
def Tuple.act (m : Tuple) (opc : Int) : Outcome :=
  if opc = 1 then
    checked (m.value 1 + m.value 2) { m.put (m.address 3) (m.value 1 + m.value 2) with pc := m.pc + 4 }
  else if opc = 2 then
    checked (m.value 1 * m.value 2) { m.put (m.address 3) (m.value 1 * m.value 2) with pc := m.pc + 4 }
  else if opc = 3 then
    .goesOn { m.put (m.address 1) (if m.xv then m.xin else m.sig) with xv := false, pc := m.pc + 2 }
  else if opc = 4 then .yields (m.value 1) { m with pc := m.pc + 2 }
  else if opc = 5 then .goesOn { m with pc := if m.value 1 ≠ 0 then m.value 2 else m.pc + 3 }
  else if opc = 6 then .goesOn { m with pc := if m.value 1 = 0 then m.value 2 else m.pc + 3 }
  else if opc = 7 then
    .goesOn { m.put (m.address 3) (if m.value 1 < m.value 2 then 1 else 0) with pc := m.pc + 4 }
  else if opc = 8 then
    .goesOn { m.put (m.address 3) (if m.value 1 = m.value 2 then 1 else 0) with pc := m.pc + 4 }
  else if opc = 9 then checked (m.rb + m.value 1) { m with rb := m.rb + m.value 1, pc := m.pc + 2 }
  else .stops

/-- `ExecOne` (rule R80), its checks in the order of rule R124. -/
def Tuple.execOne (m : Tuple) : Outcome :=
  let w := m.M m.pc
  let opc := w % 100
  let n := arity opc
  if m.inRange m.pc = false then .raises .outOfRangeAccess 0 m.pc
  else if w < 0 then .raises .negativeInstructionWord 0 w
  else
    match firstBad n fun k => decide (2 < m.mode k) with
    | some k => .raises .illegalMode k (m.mode k)
    | none =>
      match firstBad n fun k => isDestination opc k && m.mode k == 1 with
      | some k => .raises .immediateWriteTarget k 1
      | none =>
        match firstBad n fun k => !m.inRange (m.pc + k) with
        | some k => .raises .outOfRangeAccess k (m.pc + k)
        | none =>
          match firstBad n fun k => m.mode k != 1 && !m.inRange (m.address k) with
          | some k => .raises .outOfRangeAccess k (m.address k)
          | none => m.act opc

/-- The model's state as the reference machine's tuple. -/
def view (s : Machine.State) : Tuple where
  M := fun a => if 0 ≤ a then (s.mem.read a.toNat).toInt else 0
  size := s.memSize
  pc := s.pc.toInt
  rb := s.rb.toInt
  xv := s.xv
  xin := s.xin.toInt
  sig := s.sig.toInt

end Sys2Proof.Reference

open Sys2Proof Sys2Proof.Machine

/-! ## Encoding -/

/-- Words written out from rules R51, R54 and R56, and the words of 30_encoding.md and 95_test_vectors.md, decode to
what the spec says of them; the numbers 3, 5, 6, 7 and 8 are the spec's decision D1 (log entry 1). -/
def Obligations.WordsOfTheSpecDecode : Prop :=
  decode 1 = .ok (.add .position .position .position) ∧
  decode 21101 = .ok (.add .immediate .immediate .relative) ∧
  decode 1002 = .ok (.multiply .position .immediate .position) ∧
  decode 203 = .ok (.saveInput .relative) ∧
  decode 104 = .ok (.output .immediate) ∧
  decode 11104 = .ok (.output .immediate) ∧
  decode 2105 = .ok (.jumpIfTrue .immediate .relative) ∧
  decode 1006 = .ok (.jumpIfFalse .position .immediate) ∧
  decode 22207 = .ok (.lessThan .relative .relative .relative) ∧
  decode 1208 = .ok (.equals .relative .immediate .position) ∧
  decode 109 = .ok (.adjustRelative .immediate) ∧
  decode 199 = .ok .halt ∧
  decode 0 = .ok (.unknownOperation 0) ∧
  decode 98 = .ok (.unknownOperation 98) ∧
  decode 100001 = .ok (.add .position .position .position) ∧
  decode (-99) = .error (.negativeInstructionWord (-99)) ∧
  decode 13301 = .error (.illegalMode 1 3) ∧
  decode 13101 = .error (.illegalMode 2 3) ∧
  decode 91101 = .error (.illegalMode 3 9) ∧
  decode 11101 = .error (.immediateWriteTarget 3) ∧
  decode 103 = .error (.immediateWriteTarget 1)

/-- Rule R65: the decoder gives back every well-formed instruction from its canonical word. -/
def Obligations.EncodeThenDecode : Prop :=
  ∀ i : Instr, i.wellFormed = true → decode (encode i) = .ok i

/-- Rules R51, R61, R64: a word decodes to `i` exactly when `i` is well formed, the word is not negative, and its two
opcode digits and one digit per operand are those of `i`'s canonical word; no other digit matters. -/
def Obligations.DecodeReadsExactlyItsDigits : Prop :=
  ∀ (w : Word) (i : Instr), decode w = .ok i ↔
    i.wellFormed = true ∧ 0 ≤ w.toInt ∧ w.toInt % 10 ^ (i.arity + 2) = i.canonical

/-- Rules R58 to R60, R64: what the decoder rejects a word with. A negative word comes first, then the lowest operand
whose mode digit is above 2, then an Immediate destination. -/
def Obligations.DecodeRejectsInOrder : Prop :=
  ∀ (w : Word) (d : DecodeFault), decode w = .error d ↔
    (w.toInt < 0 ∧ d = .negativeInstructionWord w) ∨
    (0 ≤ w.toInt ∧ ∃ k : Nat, 1 ≤ k ∧ k ≤ Reference.arity (w.toInt % 100) ∧ 2 < Reference.digit (k + 1) w.toInt ∧
      (∀ j : Nat, 1 ≤ j → j < k → Reference.digit (j + 1) w.toInt ≤ 2) ∧
      d = .illegalMode k (Reference.digit (k + 1) w.toInt).toNat) ∨
    (0 ≤ w.toInt ∧ ∃ k : Nat, Reference.isDestination (w.toInt % 100) k = true ∧
      Reference.digit (k + 1) w.toInt = 1 ∧
      (∀ j : Nat, 1 ≤ j → j ≤ Reference.arity (w.toInt % 100) → Reference.digit (j + 1) w.toInt ≤ 2) ∧
      d = .immediateWriteTarget k)

/-- Rule R65: the canonical words of the ten operations lie between 1 and 22208, and both ends are canonical words. -/
def Obligations.CanonicalWordsHaveTheirBounds : Prop :=
  (∀ i : Instr, i.wellFormed = true → (∀ opc, i ≠ .unknownOperation opc) →
    1 ≤ (encode i).toInt ∧ (encode i).toInt ≤ 22208) ∧
  encode (.add .position .position .position) = 1 ∧
  encode (.equals .relative .relative .relative) = 22208

/-! ## Creation and the invariant -/

/-- After rule R140: a `create` request makes the machine of its image: as many cells, each with the image's value, `pc` and
`rb` 0, Running, no explicit input, no fault; and no instruction runs. That the caller's other requests and its results
go on is the model's choice (log entry 16), and so is that an empty image is admitted (log entry 5). -/
def Obligations.CreationBuildsTheMachine : Prop :=
  ∀ (s : State) (image : List Word) (rest : List Request), s.inCall = false → s.requests = .create image :: rest →
    image.length ≤ Config.maxMemSize →
    ∃ t, step s = .next t ∧ t.memSize = image.length ∧
      (∀ (i : Nat) (h : i < image.length), t.mem.read i = image[i]) ∧
      t.pc.toInt = 0 ∧ t.rb.toInt = 0 ∧ t.fsm = .running ∧ t.xv = false ∧ t.flt = none ∧
      t.inCall = false ∧ t.requests = rest ∧ t.results = s.results

/-- Rule R24, for the values the spec states: `pc`, `rb`, `fsm`, `xv`, `flt`; and `MEM_SIZE` is a legal one (R4).
Which legal `MEM_SIZE` and image the reset machine has is the model's choice (log entry 2) and is not stated. -/
def Obligations.ResetHoldsTheSpecValues : Prop :=
  State.reset.pc.toInt = 0 ∧ State.reset.rb.toInt = 0 ∧ State.reset.fsm = .running ∧ State.reset.xv = false ∧
  State.reset.flt = none ∧ Config.minMemSize ≤ State.reset.memSize ∧ State.reset.memSize ≤ Config.maxMemSize

/-- The invariant that every step keeps (`State.Inv` of Safety.lean) holds at reset. -/
def Obligations.InvariantHoldsAtReset : Prop := State.reset.Inv

/-- Every step keeps the invariant: canonical memory inside the machine, a legal memory size, Running during a call, a legal
fault record exactly when Faulted, no explicit input kept between calls, `pc` and `rb` 0 before the first call, and `pc`
on the word that halted a Halted machine. -/
def Obligations.EveryStepKeepsTheInvariant : Prop :=
  ∀ s t : State, s.Inv → step s = .next t → t.Inv

/-- Rules R62, R103, R108: the machine never gets stuck. With images within the parameter range of rule R4, every state
that meets the invariant has a next state. -/
def Obligations.EveryStepHasANextState : Prop :=
  ∀ s : State, s.Inv → (∀ r ∈ s.requests, r.Legal) → ∃ t, step s = .next t ∧ ∀ r ∈ t.requests, r.Legal

/-! ## Steps -/

/-- Rules R71, R72, R79: inside a call, the step is the execution of the instruction the word at `pc` decodes to.
Nothing is added around it. -/
def Obligations.StepRunsTheDecodedInstruction : Prop :=
  ∀ (s : State) (i : Instr), s.inCall = true → s.fsm = .running → s.InRange s.pc.toInt →
    decode (s.mem.read s.pc.toInt.toNat) = .ok i → step s = exec i s

/-- Rule R71: a fetch outside memory faults with operand index 0 and `pc` as the address. -/
def Obligations.FetchOutsideMemoryFaults : Prop :=
  ∀ s : State, s.inCall = true → s.fsm = .running → ¬s.InRange s.pc.toInt →
    ∃ t, step s = .next t ∧ FaultTaken s t ⟨.outOfRangeAccess, 0, s.pc.toInt⟩

/-- Rules R72, R120: a word the decoder rejects faults with the record of rule R120's table. -/
def Obligations.RejectedWordFaults : Prop :=
  ∀ (s : State) (d : DecodeFault), s.inCall = true → s.fsm = .running → s.InRange s.pc.toInt →
    decode (s.mem.read s.pc.toInt.toNat) = .error d →
    ∃ t, step s = .next t ∧
      (∀ w, d = .negativeInstructionWord w → FaultTaken s t ⟨.negativeInstructionWord, 0, w.toInt⟩) ∧
      (∀ k n, d = .illegalMode k n → FaultTaken s t ⟨.illegalMode, k, n⟩) ∧
      (∀ k, d = .immediateWriteTarget k → FaultTaken s t ⟨.immediateWriteTarget, k, 1⟩)

/-- Rule R104: a call on a Running or Suspended machine latches its arguments and runs from the current `pc`. -/
def Obligations.CallLatchesItsInputs : Prop :=
  ∀ (s : State) (x : Option Word) (y : Word) (rest : List Request), s.inCall = false →
    (s.fsm = .running ∨ s.fsm = .suspended) → s.requests = .step x y :: rest →
    ∃ t, step s = .next t ∧ t.sig = y ∧ t.fsm = .running ∧ t.inCall = true ∧
      (∀ v, x = some v → t.xv = true ∧ t.xin = v) ∧ (x = none → t.xv = false) ∧
      t = { s with xv := t.xv, xin := t.xin, sig := t.sig, fsm := t.fsm, inCall := t.inCall, requests := rest }

/-- Rule R45: between calls, and whatever call begins or is answered, memory, `pc` and `rb` keep their values; only
`create` makes new ones. A Halted machine's memory is never written again. -/
def Obligations.StateSurvivesBetweenCalls : Prop :=
  ∀ s t : State, s.inCall = false → (∀ image rest, s.requests ≠ .create image :: rest) → step s = .next t →
    t.mem = s.mem ∧ t.memSize = s.memSize ∧ t.pc = s.pc ∧ t.rb = s.rb ∧
      (s.fsm = .halted → t.fsm = .halted ∧ t.inCall = false)

/-- Rules R99, R108: a Halted machine answers every one of any number of calls with None and changes in nothing else. -/
def Obligations.HaltedMachineAnswersNoValue : Prop :=
  ∀ (s : State) (calls : List Request), s.inCall = false → s.fsm = .halted → s.requests = calls →
    (∀ r ∈ calls, r.isStep = true) →
    Sys2Proof.core.run calls.length s =
      .next { s with requests := [], results := s.results ++ List.replicate calls.length .noValue }

/-- Rules R108, R128: a Faulted machine answers every one of any number of calls with its recorded fault and changes in
nothing else. -/
def Obligations.FaultedMachineRepeatsItsFault : Prop :=
  ∀ (s : State) (f : FaultRecord) (calls : List Request), s.inCall = false → s.fsm = .faulted → s.flt = some f →
    s.requests = calls → (∀ r ∈ calls, r.isStep = true) →
    Sys2Proof.core.run calls.length s =
      .next { s with requests := [], results := s.results ++ List.replicate calls.length (.fault f) }

/-- Rule R137: without a request the machine stays as it is. -/
def Obligations.IdleMachineWaits : Prop :=
  ∀ s : State, s.inCall = false → s.requests = [] → step s = .next s

/-! ## What each instruction does, where it completes, and what it leaves alone -/

/-- After rule R90: with both sources readable, the destination inside memory and the sum in Int64, Add completes; the
cell the destination names holds the exact sum, `pc` is 4 further, and no other cell, register, latch or part of the call
has changed. Every mode of every operand;
an Immediate destination is in `Obligations.ImmediateDestinationFaults`. -/
def Obligations.AddStoresTheExactSum : Prop :=
  ∀ (s : State) (m1 m2 m3 : Mode) (a : Int), Memory.wf s.mem → s.memSize ≤ Config.maxMemSize →
    SourceReadable s 1 m1 → SourceReadable s 2 m2 → DestinationAt s 3 m3 a →
    FitsInt64 ((sourceValue s 1 m1).toInt + (sourceValue s 2 m2).toInt) →
    ∃ t, exec (.add m1 m2 m3) s = .next t ∧
      StoresAndAdvances s t a ((sourceValue s 1 m1).toInt + (sourceValue s 2 m2).toInt) 4

/-- After rule R91: with both sources readable, the destination inside memory and the product in Int64, Multiply completes;
the cell the destination names holds the exact product, `pc` is 4 further, and nothing else has changed. Every mode of
every operand. -/
def Obligations.MultiplyStoresTheExactProduct : Prop :=
  ∀ (s : State) (m1 m2 m3 : Mode) (a : Int), Memory.wf s.mem → s.memSize ≤ Config.maxMemSize →
    SourceReadable s 1 m1 → SourceReadable s 2 m2 → DestinationAt s 3 m3 a →
    FitsInt64 ((sourceValue s 1 m1).toInt * (sourceValue s 2 m2).toInt) →
    ∃ t, exec (.multiply m1 m2 m3) s = .next t ∧
      StoresAndAdvances s t a ((sourceValue s 1 m1).toInt * (sourceValue s 2 m2).toInt) 4

/-- After rule R96: with both sources readable and the destination inside memory, LessThan completes; the cell the
destination names holds 1 if the first value is less as an integer and else 0, `pc` is 4 further, and nothing else has
changed. -/
def Obligations.LessThanStoresTheSignedComparison : Prop :=
  ∀ (s : State) (m1 m2 m3 : Mode) (a : Int), Memory.wf s.mem → s.memSize ≤ Config.maxMemSize →
    SourceReadable s 1 m1 → SourceReadable s 2 m2 → DestinationAt s 3 m3 a →
    ∃ t, exec (.lessThan m1 m2 m3) s = .next t ∧
      StoresAndAdvances s t a (if (sourceValue s 1 m1).toInt < (sourceValue s 2 m2).toInt then 1 else 0) 4

/-- After rule R97: with both sources readable and the destination inside memory, Equals completes; the cell the destination
names holds 1 if the values are equal and else 0, `pc` is 4 further, and nothing else has changed. -/
def Obligations.EqualsStoresTheComparison : Prop :=
  ∀ (s : State) (m1 m2 m3 : Mode) (a : Int), Memory.wf s.mem → s.memSize ≤ Config.maxMemSize →
    SourceReadable s 1 m1 → SourceReadable s 2 m2 → DestinationAt s 3 m3 a →
    ∃ t, exec (.equals m1 m2 m3) s = .next t ∧
      StoresAndAdvances s t a (if (sourceValue s 1 m1).toInt = (sourceValue s 2 m2).toInt then 1 else 0) 4

/-- After rule R92: with the destination inside memory, SaveInput completes; the cell the destination names holds the explicit
input if one is left in this call, which is then used up, and else the fallback signal; `pc` is 2 further, and nothing
else has changed (decision D14). -/
def Obligations.SaveInputStoresTheInput : Prop :=
  ∀ (s : State) (m1 : Mode) (a : Int), Memory.wf s.mem → s.memSize ≤ Config.maxMemSize → DestinationAt s 1 m1 a →
    ∃ t, exec (.saveInput m1) s = .next t ∧ t.xv = false ∧
      t.mem.read a.toNat = (if s.xv = true then s.xin else s.sig) ∧
      (∀ b : Nat, b ≠ a.toNat → t.mem.read b = s.mem.read b) ∧
      t.pc.toInt = s.pc.toInt + 2 ∧ t = { s with mem := t.mem, pc := t.pc, xv := t.xv }

/-- After rules R93 and R105: with the source readable, Output completes; `pc` is 2 further, the call ends with the value the
operand had before the instruction, the machine is Suspended, and an unused explicit input is dropped. Memory, `rb`, the
two input values and the fault record have not changed. -/
def Obligations.OutputYieldsAndSuspends : Prop :=
  ∀ (s : State) (m1 : Mode), s.memSize ≤ Config.maxMemSize → SourceReadable s 1 m1 →
    ∃ t, exec (.output m1) s = .next t ∧ t.pc.toInt = s.pc.toInt + 2 ∧
      t = { s with pc := t.pc, fsm := .suspended, xv := false, inCall := false,
                   results := s.results ++ [.value (sourceValue s 1 m1)] }

/-- After rule R94: with both operands readable, JumpIfTrue completes; `pc` is the target's value if the condition is not 0
and else 3 further, and nothing else has changed. -/
def Obligations.JumpIfTrueJumpsOrAdvances : Prop :=
  ∀ (s : State) (m1 m2 : Mode), s.memSize ≤ Config.maxMemSize → SourceReadable s 1 m1 → SourceReadable s 2 m2 →
    ∃ t, exec (.jumpIfTrue m1 m2) s = .next t ∧
      t.pc.toInt = (if (sourceValue s 1 m1).toInt ≠ 0 then (sourceValue s 2 m2).toInt else s.pc.toInt + 3) ∧
      t = { s with pc := t.pc }

/-- After rule R95: with both operands readable, JumpIfFalse completes; `pc` is the target's value if the condition is 0 and
else 3 further, and nothing else has changed. -/
def Obligations.JumpIfFalseJumpsOrAdvances : Prop :=
  ∀ (s : State) (m1 m2 : Mode), s.memSize ≤ Config.maxMemSize → SourceReadable s 1 m1 → SourceReadable s 2 m2 →
    ∃ t, exec (.jumpIfFalse m1 m2) s = .next t ∧
      t.pc.toInt = (if (sourceValue s 1 m1).toInt = 0 then (sourceValue s 2 m2).toInt else s.pc.toInt + 3) ∧
      t = { s with pc := t.pc }

/-- After rule R98: with the source readable and the sum in Int64, AdjustRelative completes; `rb` has grown by the operand's
value, also a Relative operand's, read through the old `rb`; `pc` is 2 further, and nothing else has changed. -/
def Obligations.AdjustRelativeMovesTheBase : Prop :=
  ∀ (s : State) (m1 : Mode), s.memSize ≤ Config.maxMemSize → SourceReadable s 1 m1 →
    FitsInt64 (s.rb.toInt + (sourceValue s 1 m1).toInt) →
    ∃ t, exec (.adjustRelative m1) s = .next t ∧ t.rb.toInt = s.rb.toInt + (sourceValue s 1 m1).toInt ∧
      t.pc.toInt = s.pc.toInt + 2 ∧ t = { s with rb := t.rb, pc := t.pc }

/-- Rules R99, R100: Halt and every unknown opcode complete in every state, with the same effect: the machine is Halted, the
call ends with None, an unused explicit input is dropped, and `pc`, memory, `rb` and the fault record are as they were. -/
def Obligations.HaltAndUnknownOperationStop : Prop :=
  ∀ (s : State) (opc : Nat),
    exec .halt s = .next { s with fsm := .halted, xv := false, inCall := false, results := s.results ++ [.noValue] } ∧
    exec (.unknownOperation opc) s =
      .next { s with fsm := .halted, xv := false, inCall := false, results := s.results ++ [.noValue] }

/-- After rules R73 and R106: a word that acts as Halt (an unknown opcode by decision D17, log entry 14) needs no operand and
no mode digit: every non-negative word with its two opcode digits is the same instruction (decision D10, log entry 9). It
stops the call that reaches it in whatever cell it stands, the last one too, with None as the result, and leaves `pc` on
it and everything earlier instructions did as it was; an explicit input left is dropped (decision D14, log entry 11). -/
def Obligations.HaltWordStopsTheCall : Prop :=
  ∀ (s : State) (i : Instr), s.inCall = true → s.fsm = .running → s.InRange s.pc.toInt →
    decode (s.mem.read s.pc.toInt.toNat) = .ok i → (i = .halt ∨ ∃ opc, i = .unknownOperation opc) →
    i.arity = 0 ∧
    (∀ w : Word, 0 ≤ w.toInt → w.toInt % 100 = (s.mem.read s.pc.toInt.toNat).toInt % 100 → decode w = .ok i) ∧
    ∃ t, step s = .next t ∧ t.fsm = .halted ∧ t.pc = s.pc ∧
      t = { s with fsm := t.fsm, xv := false, inCall := false, results := s.results ++ [.noValue] }

/-! ## Where instructions fault -/

/-- After rule R123: with all operands in order and a result outside Int64, Add, Multiply and AdjustRelative fault with the
exact result, and nothing is stored (decision D5). -/
def Obligations.OverflowFaultsAndStoresNothing : Prop :=
  (∀ (s : State) (m1 m2 m3 : Mode) (a : Int), SourceReadable s 1 m1 → SourceReadable s 2 m2 → DestinationAt s 3 m3 a →
    ¬FitsInt64 ((sourceValue s 1 m1).toInt + (sourceValue s 2 m2).toInt) →
    ∃ t, exec (.add m1 m2 m3) s = .next t ∧
      FaultTaken s t ⟨.arithmeticOverflow, 0, (sourceValue s 1 m1).toInt + (sourceValue s 2 m2).toInt⟩) ∧
  (∀ (s : State) (m1 m2 m3 : Mode) (a : Int), SourceReadable s 1 m1 → SourceReadable s 2 m2 → DestinationAt s 3 m3 a →
    ¬FitsInt64 ((sourceValue s 1 m1).toInt * (sourceValue s 2 m2).toInt) →
    ∃ t, exec (.multiply m1 m2 m3) s = .next t ∧
      FaultTaken s t ⟨.arithmeticOverflow, 0, (sourceValue s 1 m1).toInt * (sourceValue s 2 m2).toInt⟩) ∧
  (∀ (s : State) (m1 : Mode), SourceReadable s 1 m1 → ¬FitsInt64 (s.rb.toInt + (sourceValue s 1 m1).toInt) →
    ∃ t, exec (.adjustRelative m1) s = .next t ∧
      FaultTaken s t ⟨.arithmeticOverflow, 0, s.rb.toInt + (sourceValue s 1 m1).toInt⟩)

/-- Rules R75, R124: the lowest operand word outside memory faults, before any operand is resolved and whether or not
the instruction would use it. -/
def Obligations.OperandWordOutsideMemoryFaults : Prop :=
  ∀ (s : State) (i : Instr) (k : Nat), 1 ≤ k → k ≤ i.arity → ¬s.InRange (s.pc.toInt + k) →
    (∀ j : Nat, 1 ≤ j → j < k → s.InRange (s.pc.toInt + j)) →
    ∃ t, exec i s = .next t ∧ FaultTaken s t ⟨.outOfRangeAccess, k, s.pc.toInt + k⟩

/-- Rules R76 to R78, R81, R124: with all operand words fetched, the lowest operand whose exact address is outside
memory faults, sources before the destination and before any overflow, also the target of a jump that is not taken. -/
def Obligations.OperandAddressOutsideMemoryFaults : Prop :=
  ∀ (s : State) (i : Instr) (k : Nat) (m : Mode) (a : Int),
    (∀ j : Nat, 1 ≤ j → j ≤ i.arity → s.InRange (s.pc.toInt + j)) →
    1 ≤ k → i.modes[k - 1]? = some m → effectiveAddress s m (rawOperand s k) = some a → ¬s.InRange a →
    (∀ (j : Nat) (n : Mode) (b : Int), 1 ≤ j → j < k → i.modes[j - 1]? = some n →
      effectiveAddress s n (rawOperand s j) = some b → s.InRange b) →
    ∃ t, exec i s = .next t ∧ FaultTaken s t ⟨.outOfRangeAccess, k, a⟩

/-- Rule R59 raises ImmediateWriteTarget at decode, so no word reaches `exec` with an Immediate destination; for such
records `exec` takes the same fault (the model's choice, log entry 7). -/
def Obligations.ImmediateDestinationFaults : Prop :=
  (∀ (s : State) (i : Instr) (m1 m2 : Mode),
    (i = .add m1 m2 .immediate ∨ i = .multiply m1 m2 .immediate ∨ i = .lessThan m1 m2 .immediate ∨
      i = .equals m1 m2 .immediate) →
    SourceReadable s 1 m1 → SourceReadable s 2 m2 → s.InRange (s.pc.toInt + 3) →
    ∃ t, exec i s = .next t ∧ FaultTaken s t ⟨.immediateWriteTarget, 3, 1⟩) ∧
  (∀ s : State, s.InRange (s.pc.toInt + 1) →
    ∃ t, exec (.saveInput .immediate) s = .next t ∧ FaultTaken s t ⟨.immediateWriteTarget, 1, 1⟩)

/-! ## Rules about the whole machine -/

/-- Rule R95's corner case: with the same operands one of the two jumps goes to the target and the other advances by 3,
in every state in which the operands can be read. -/
def Obligations.JumpsAreComplements : Prop :=
  ∀ (s : State) (m1 m2 : Mode), SourceReadable s 1 m1 → SourceReadable s 2 m2 →
    ∃ t u, exec (.jumpIfTrue m1 m2) s = .next t ∧ exec (.jumpIfFalse m1 m2) s = .next u ∧
      ((t = { s with pc := sourceValue s 2 m2 } ∧ u = { s with pc := s.pc + 3 }) ∨
       (t = { s with pc := s.pc + 3 } ∧ u = { s with pc := sourceValue s 2 m2 }))

/-- Rule R13, row by row: in a step that faults `pc` stays; in any other step inside a call the word at `pc` decodes, and `pc`
is left as the row of its operation says. -/
def Obligations.PcAfterEveryInstruction : Prop :=
  ∀ s t : State, s.inCall = true → s.memSize ≤ Config.maxMemSize → step s = .next t →
    (t.fsm = .faulted → t.pc = s.pc) ∧
    (t.fsm ≠ .faulted → ∃ i, decode (s.mem.read s.pc.toInt.toNat) = .ok i ∧
      match i with
      | .add _ _ _ => t.pc.toInt = s.pc.toInt + 4
      | .multiply _ _ _ => t.pc.toInt = s.pc.toInt + 4
      | .lessThan _ _ _ => t.pc.toInt = s.pc.toInt + 4
      | .equals _ _ _ => t.pc.toInt = s.pc.toInt + 4
      | .saveInput _ => t.pc.toInt = s.pc.toInt + 2
      | .adjustRelative _ => t.pc.toInt = s.pc.toInt + 2
      | .output _ => t.pc.toInt = s.pc.toInt + 2
      | .jumpIfTrue c g => t.pc.toInt =
          if (sourceValue s 1 c).toInt ≠ 0 then (sourceValue s 2 g).toInt else s.pc.toInt + 3
      | .jumpIfFalse c g => t.pc.toInt =
          if (sourceValue s 1 c).toInt = 0 then (sourceValue s 2 g).toInt else s.pc.toInt + 3
      | .halt => t.pc = s.pc
      | .unknownOperation _ => t.pc = s.pc)

/-- Rules R14, R23: the relative base changes only by an AdjustRelative, or in a machine made anew. -/
def Obligations.OnlyAdjustRelativeMovesTheBase : Prop :=
  ∀ s t : State, step s = .next t → t.rb ≠ s.rb →
    (s.inCall = true ∧ ∃ m1, decode (s.mem.read s.pc.toInt.toNat) = .ok (.adjustRelative m1)) ∨
    (s.inCall = false ∧ ∃ image rest, s.requests = .create image :: rest)

/-- Rules R11, R25, R36: memory changes only by one of the five storing instructions, and then in at most one cell, the
one its destination operand names; its size never changes; or the machine is made anew. -/
def Obligations.OnlyStoringInstructionsChangeMemory : Prop :=
  ∀ s t : State, step s = .next t →
    (s.inCall = false ∧ ∃ image rest, s.requests = .create image :: rest) ∨
    (t.memSize = s.memSize ∧
      (t.mem = s.mem ∨
       (s.inCall = true ∧ ∃ (i : Instr) (k : Nat) (m : Mode) (a : Int),
         decode (s.mem.read s.pc.toInt.toNat) = .ok i ∧ i.destination = some k ∧ i.modes[k - 1]? = some m ∧
         DestinationAt s k m a ∧ ∀ b : Nat, b ≠ a.toNat → t.mem.read b = s.mem.read b)))

/-- Rule R111's table: every transition is one of its rows, with the row's run states and result, or the machine
waiting for a request. Output is the sole suspension point; Halted and Faulted are left only by `create`. -/
def Obligations.EveryTransitionIsInTheTable : Prop :=
  ∀ s t : State, s.Inv → step s = .next t →
    (s.inCall = false ∧ s.requests = [] ∧ t = s) ∨
    (s.inCall = false ∧ (∃ image rest, s.requests = .create image :: rest) ∧
      t.fsm = .running ∧ t.inCall = false ∧ t.results = s.results) ∨
    (s.inCall = false ∧ (s.fsm = .running ∨ s.fsm = .suspended) ∧ (∃ x y rest, s.requests = .step x y :: rest) ∧
      t.fsm = .running ∧ t.inCall = true ∧ t.results = s.results) ∨
    (s.inCall = false ∧ s.fsm = .halted ∧ (∃ x y rest, s.requests = .step x y :: rest) ∧
      t.fsm = .halted ∧ t.inCall = false ∧ t.results = s.results ++ [.noValue]) ∨
    (s.inCall = false ∧ s.fsm = .faulted ∧ (∃ x y rest, s.requests = .step x y :: rest) ∧
      t.fsm = .faulted ∧ t.inCall = false ∧ ∃ f, s.flt = some f ∧ t.flt = some f ∧
      t.results = s.results ++ [.fault f]) ∨
    (s.inCall = true ∧ s.fsm = .running ∧ t.inCall = true ∧ t.fsm = .running ∧ t.results = s.results ∧
      ∃ i, decode (s.mem.read s.pc.toInt.toNat) = .ok i ∧ (∀ m, i ≠ .output m) ∧ actsAsHalt i = false) ∨
    (s.inCall = true ∧ s.fsm = .running ∧ t.inCall = false ∧ t.fsm = .suspended ∧
      ∃ m, decode (s.mem.read s.pc.toInt.toNat) = .ok (.output m) ∧
        t.results = s.results ++ [.value (sourceValue s 1 m)]) ∨
    (s.inCall = true ∧ s.fsm = .running ∧ t.inCall = false ∧ t.fsm = .halted ∧ t.results = s.results ++ [.noValue] ∧
      ∃ i, decode (s.mem.read s.pc.toInt.toNat) = .ok i ∧ actsAsHalt i = true) ∨
    (s.inCall = true ∧ s.fsm = .running ∧ t.inCall = false ∧ t.fsm = .faulted ∧
      ∃ f, t.flt = some f ∧ t.results = s.results ++ [.fault f])

/-- Rules R107, R126, R127: a step that faults changes nothing but the record, the run state and the call, and records
a fault rule R120's table has (the spec's decision D13). -/
def Obligations.FaultsArePrecise : Prop :=
  ∀ s t : State, s.inCall = true → step s = .next t → t.fsm = .faulted →
    ∃ f, FaultTaken s t f ∧ f.Legal s.memSize

/-- Rules R17, R127, R128: in a Faulted machine the record is the fault the instruction at `pc` raises from the memory,
`pc` and `rb` the machine has; every step keeps it so. -/
def Obligations.FaultRecordStaysReproducible : Prop :=
  ∀ s t : State, (s.fsm = .faulted → faultRaised s = s.flt) → step s = .next t →
    (t.fsm = .faulted → faultRaised t = t.flt)

/-- Rules R103, R105, R148: results are only added, and each step call gets exactly one: calls answered and calls still
open together stay the same in number. -/
def Obligations.EveryCallGetsOneResult : Prop :=
  ∀ s t : State, step s = .next t →
    s.results <+: t.results ∧ t.results.length + t.openCalls = s.results.length + s.openCalls

/-- Rule R109: when a call that ran instructions returns, the explicit input is gone whether or not it was consumed, and
the other two latches keep their values. -/
def Obligations.EndOfCallDropsTheInput : Prop :=
  ∀ s t : State, s.inCall = true → step s = .next t → t.inCall = false →
    t.xv = false ∧ t.xin = s.xin ∧ t.sig = s.sig

/-- Rule R41: a store is seen by the very next fetch. Whichever of the five storing instructions completes: if its
destination is the cell the next instruction starts at, the next step runs the instruction the stored word decodes to;
and if its destination is the cell `q` further, the word fetched there, as the next instruction's operand word `q`, is
the stored one. What a SaveInput stores is decision D14 (log entry 11). -/
def Obligations.StoredWordIsFetchedNext : Prop :=
  ∀ (s : State) (i : Instr) (k : Nat) (m : Mode) (a v : Int), s.Inv → s.inCall = true → s.InRange s.pc.toInt →
    decode (s.mem.read s.pc.toInt.toNat) = .ok i → i.destination = some k → i.modes[k - 1]? = some m →
    (∀ (n : Nat) (m' : Mode), 1 ≤ n → n < k → i.modes[n - 1]? = some m' → SourceReadable s n m') →
    DestinationAt s k m a → storedValue s i = some v → FitsInt64 v →
    ∃ t, step s = .next t ∧
      (∀ j : Instr, a = s.pc.toInt + i.arity + 1 → decode (BitVec.ofInt 64 v) = .ok j → step t = exec j t) ∧
      (∀ q : Nat, a = s.pc.toInt + i.arity + 1 + q → (rawOperand t q).toInt = v)

/-- Rule R110: a jump to itself that is always taken keeps the call running; after any number of steps there is no
result and the state is the same. -/
def Obligations.JumpToItselfNeverReturns : Prop :=
  ∀ (s : State) (m1 m2 : Mode) (n : Nat), s.inCall = true → s.fsm = .running → s.InRange s.pc.toInt →
    SourceReadable s 1 m1 → SourceReadable s 2 m2 → sourceValue s 2 m2 = s.pc →
    ((decode (s.mem.read s.pc.toInt.toNat) = .ok (.jumpIfTrue m1 m2) ∧ (sourceValue s 1 m1).toInt ≠ 0) ∨
     (decode (s.mem.read s.pc.toInt.toNat) = .ok (.jumpIfFalse m1 m2) ∧ (sourceValue s 1 m1).toInt = 0)) →
    Sys2Proof.core.run n s = .next s

/-- Rules R16, R27: a latch no instruction can read has no influence. Two states that differ only in such latches step
alike, and differ only in such latches afterwards. -/
def Obligations.DeadLatchesHaveNoInfluence : Prop :=
  ∀ s s' : State, SameButDeadLatches s s' →
    (∀ t, step s = .next t → ∃ t', step s' = .next t' ∧ SameButDeadLatches t t') ∧
    (∀ r, step s = .fault r → step s' = .fault r) ∧
    (∀ r, step s = .refused r → step s' = .refused r)

/-- Rules R70, R80, R103, R124: inside a call the model's step is rule R80's `ExecOne`, read a second time over ℤ, and
what rule R103 does with its outcome. Every instruction, every operand form, every fault and their order. -/
def Obligations.StepRefinesExecOne : Prop :=
  ∀ s : State, Memory.wf s.mem → s.memSize ≤ Config.maxMemSize → s.inCall = true → s.fsm = .running →
    match (Reference.view s).execOne with
    | .goesOn m => ∃ t, step s = .next t ∧ Reference.view t = m ∧
        t = { s with mem := t.mem, pc := t.pc, rb := t.rb, xv := t.xv }
    | .yields v m => ∃ (t : State) (w : Word), step s = .next t ∧ Reference.view t = { m with xv := false } ∧
        w.toInt = v ∧
        t = { s with pc := t.pc, xv := false, fsm := .suspended, inCall := false, results := s.results ++ [.value w] }
    | .stops =>
        step s = .next { s with xv := false, fsm := .halted, inCall := false, results := s.results ++ [.noValue] }
    | .raises code k value => ∃ t, step s = .next t ∧ FaultTaken s t ⟨code, k, value⟩

/-- Rules R102, R113, R120: every result a call ends with can be shown on the output ports, its fault code in 3 bits, its
operand index in 2 and its value in 128, and a setting of the ports that shows it shows no other result. -/
def Obligations.EveryResultFitsItsPorts : Prop :=
  ∀ s t : State, s.inCall = true → step s = .next t → t.inCall = false →
    ∃ r, t.results = s.results ++ [r] ∧ (∃ p : ResultPorts, p.Shows r) ∧
      ∀ (p : ResultPorts) (r' : CallResult), p.Shows r → p.Shows r' → r' = r

/-- Rules R22, R27, R114: a transition depends on the machine's own state and on the request being served, and on nothing
else the caller holds. An instruction leaves the caller's requests alone and a served request is the first one; and with
any other requests still to come and any other results already given, the machine changes in the same way and gives the
same new results. The lists are the model's own form of the caller (log entry 4). -/
def Obligations.CallersListsHaveNoInfluence : Prop :=
  (∀ (s t : State) (q : List Request) (o : List CallResult), s.inCall = true → step s = .next t →
    t.requests = s.requests ∧ ∃ new, t.results = s.results ++ new ∧
      step { s with requests := q, results := o } = .next { t with requests := q, results := o ++ new }) ∧
  (∀ (s t : State) (r : Request) (rest q : List Request) (o : List CallResult), s.inCall = false →
    s.requests = r :: rest → step s = .next t →
    t.requests = rest ∧ ∃ new, t.results = s.results ++ new ∧
      step { s with requests := r :: q, results := o } = .next { t with requests := q, results := o ++ new })

/-- Rules R113, R116: the ports carry one transaction at a time. Sampling and stepping keep it at one. While a step call
is in progress the request ports change nothing; each step either leaves it in progress, with `step_done` down, or ends it
with one result, which is then what the result ports show; and a `create` ends with `step_done` down. How the ports
follow State is the model's choice where the rules leave it open (log entry 17). -/
def Obligations.PortsCarryOneTransactionAtATime : Prop :=
  (∀ (s t : State) (p : RequestPorts), s.PortDriven → s.Sampled p t →
    t.PortDriven ∧ (1 ≤ s.openCalls → t = s)) ∧
  (∀ s t : State, s.PortDriven → step s = .next t → t.PortDriven) ∧
  (∀ s t : State, s.PortDriven → s.openCalls = 1 → step s = .next t →
    (t.openCalls = 1 ∧ t.results = s.results ∧ ∀ p : ResultPorts, p.DrivenBy t ↔ p.stepDone = false) ∨
    (t.openCalls = 0 ∧ ∃ r, t.results = s.results ++ [r] ∧ ∀ p : ResultPorts, p.DrivenBy t ↔ p.Shows r)) ∧
  (∀ (s t : State) (image : List Word), s.inCall = false → s.requests = [.create image] → step s = .next t →
    t.transacting = false ∧ ∀ p : ResultPorts, p.DrivenBy t ↔ p.stepDone = false)
end

