-- ==== Sys2Proof/Laws/Decode.lean ====
section
/-! SUPPORT. One lemma per function of the decoder, saying when it answers what. -/
namespace Sys2Proof

/-! ## Sequencing of checks -/

theorem bind_eq_ok_iff {ε α β : Type} {x : Except ε α} {f : α → Except ε β} {b : β} :
    (x >>= f) = .ok b ↔ ∃ a, x = .ok a ∧ f a = .ok b := by
  cases x with
  | error e => simp [bind, Except.bind]
  | ok a => simp [bind, Except.bind]

theorem bind_eq_error_iff {ε α β : Type} {x : Except ε α} {f : α → Except ε β} {e : ε} :
    (x >>= f) = .error e ↔ x = .error e ∨ ∃ a, x = .ok a ∧ f a = .error e := by
  cases x with
  | error e => simp [bind, Except.bind]
  | ok a => simp [bind, Except.bind]

@[simp] theorem bind_ok {ε α β : Type} (a : α) (f : α → Except ε β) : (Except.ok a >>= f) = f a := rfl

@[simp] theorem bind_error {ε α β : Type} (e : ε) (f : α → Except ε β) : (Except.error e >>= f) = .error e := rfl

@[simp] theorem pure_eq_ok {ε α : Type} (a : α) : (pure a : Except ε α) = .ok a := rfl

/-! ## Digits -/

theorem digit_le_nine (k w : Nat) : digit k w ≤ 9 := by
  have := Nat.mod_lt (w / 10 ^ k) (show 0 < 10 by decide)
  unfold digit
  omega

theorem mode_digit_le_two (m : Mode) : m.digit ≤ 2 := by cases m <;> decide

theorem modeOfDigit_eq_some_iff {d : Nat} {m : Mode} : modeOfDigit d = some m ↔ d = m.digit := by
  rcases d with _ | _ | _ | d <;> cases m <;> simp [modeOfDigit, Mode.digit]

theorem modeOfDigit_eq_none_iff {d : Nat} : modeOfDigit d = none ↔ 3 ≤ d := by
  rcases d with _ | _ | _ | d <;> simp [modeOfDigit]

theorem mode_digit_injective {m n : Mode} (h : m.digit = n.digit) : m = n := by
  cases m <;> cases n <;> simp_all [Mode.digit]

/-- The digits that are modes. -/
theorem exists_mode_digit_iff {d : Nat} : (∃ m : Mode, d = m.digit) ↔ d ≤ 2 := by
  constructor
  · rintro ⟨m, rfl⟩
    exact mode_digit_le_two m
  · intro h
    obtain rfl | rfl | rfl : d = 0 ∨ d = 1 ∨ d = 2 := by omega
    exacts [⟨.position, rfl⟩, ⟨.immediate, rfl⟩, ⟨.relative, rfl⟩]

theorem digit_immediate : Mode.immediate.digit = 1 := rfl

theorem writable_iff {m : Mode} : m.writable = true ↔ m ≠ .immediate := by simp [Mode.writable]

/-! ## The decoder's parts -/

theorem operandMode_eq_ok_iff {w k : Nat} {m : Mode} : operandMode w k = .ok m ↔ digit (k + 1) w = m.digit := by
  rw [← modeOfDigit_eq_some_iff]
  unfold operandMode
  cases modeOfDigit (digit (k + 1) w) <;> simp

theorem operandMode_eq_error_iff {w k : Nat} {f : DecodeFault} :
    operandMode w k = .error f ↔ 3 ≤ digit (k + 1) w ∧ f = .illegalMode k (digit (k + 1) w) := by
  rw [← modeOfDigit_eq_none_iff]
  unfold operandMode
  cases modeOfDigit (digit (k + 1) w) <;> simp [eq_comm]

theorem checkDestination_eq_ok_iff {k : Nat} {m : Mode} {u : Unit} :
    checkDestination k m = .ok u ↔ m.writable = true := by
  unfold checkDestination
  split <;> simp_all

theorem checkDestination_eq_error_iff {k : Nat} {m : Mode} {f : DecodeFault} :
    checkDestination k m = .error f ↔ m = .immediate ∧ f = .immediateWriteTarget k := by
  cases m <;> simp [checkDestination, Mode.writable]
  exact eq_comm

/-- Format F3 answers an instruction exactly when its three digits are modes and the third is writable. -/
theorem decodeF3_eq_ok_iff {w : Nat} {mk : Mode → Mode → Mode → Instr} {i : Instr} :
    decodeF3 w mk = .ok i ↔ ∃ m1 m2 m3, digit 2 w = m1.digit ∧ digit 3 w = m2.digit ∧ digit 4 w = m3.digit ∧
      m3.writable = true ∧ mk m1 m2 m3 = i := by
  simp [decodeF3, bind_eq_ok_iff, operandMode_eq_ok_iff, checkDestination_eq_ok_iff]

theorem decodeF2_eq_ok_iff {w : Nat} {mk : Mode → Mode → Instr} {i : Instr} :
    decodeF2 w mk = .ok i ↔ ∃ m1 m2, digit 2 w = m1.digit ∧ digit 3 w = m2.digit ∧ mk m1 m2 = i := by
  simp [decodeF2, bind_eq_ok_iff, operandMode_eq_ok_iff]

theorem decodeF1Source_eq_ok_iff {w : Nat} {mk : Mode → Instr} {i : Instr} :
    decodeF1Source w mk = .ok i ↔ ∃ m1, digit 2 w = m1.digit ∧ mk m1 = i := by
  simp [decodeF1Source, bind_eq_ok_iff, operandMode_eq_ok_iff]

theorem decodeF1Destination_eq_ok_iff {w : Nat} {mk : Mode → Instr} {i : Instr} :
    decodeF1Destination w mk = .ok i ↔ ∃ m1, digit 2 w = m1.digit ∧ m1.writable = true ∧ mk m1 = i := by
  simp [decodeF1Destination, bind_eq_ok_iff, operandMode_eq_ok_iff, checkDestination_eq_ok_iff]

/-- Format F3 rejects for the lowest illegal digit, and for an Immediate destination when no digit is illegal. -/
theorem decodeF3_eq_error_iff {w : Nat} {mk : Mode → Mode → Mode → Instr} {f : DecodeFault} :
    decodeF3 w mk = .error f ↔
      (3 ≤ digit 2 w ∧ f = .illegalMode 1 (digit 2 w)) ∨
      (digit 2 w ≤ 2 ∧ 3 ≤ digit 3 w ∧ f = .illegalMode 2 (digit 3 w)) ∨
      (digit 2 w ≤ 2 ∧ digit 3 w ≤ 2 ∧ 3 ≤ digit 4 w ∧ f = .illegalMode 3 (digit 4 w)) ∨
      (digit 2 w ≤ 2 ∧ digit 3 w ≤ 2 ∧ digit 4 w = 1 ∧ f = .immediateWriteTarget 3) := by
  simp [decodeF3, bind_eq_error_iff, operandMode_eq_ok_iff, operandMode_eq_error_iff,
    checkDestination_eq_error_iff, exists_mode_digit_iff, digit_immediate]
  tauto

theorem decodeF2_eq_error_iff {w : Nat} {mk : Mode → Mode → Instr} {f : DecodeFault} :
    decodeF2 w mk = .error f ↔
      (3 ≤ digit 2 w ∧ f = .illegalMode 1 (digit 2 w)) ∨
      (digit 2 w ≤ 2 ∧ 3 ≤ digit 3 w ∧ f = .illegalMode 2 (digit 3 w)) := by
  simp [decodeF2, bind_eq_error_iff, operandMode_eq_ok_iff, operandMode_eq_error_iff, exists_mode_digit_iff]

theorem decodeF1Source_eq_error_iff {w : Nat} {mk : Mode → Instr} {f : DecodeFault} :
    decodeF1Source w mk = .error f ↔ 3 ≤ digit 2 w ∧ f = .illegalMode 1 (digit 2 w) := by
  simp [decodeF1Source, bind_eq_error_iff, operandMode_eq_error_iff]

theorem decodeF1Destination_eq_error_iff {w : Nat} {mk : Mode → Instr} {f : DecodeFault} :
    decodeF1Destination w mk = .error f ↔
      (3 ≤ digit 2 w ∧ f = .illegalMode 1 (digit 2 w)) ∨ (digit 2 w = 1 ∧ f = .immediateWriteTarget 1) := by
  simp [decodeF1Destination, bind_eq_error_iff, operandMode_eq_ok_iff, operandMode_eq_error_iff,
    checkDestination_eq_error_iff, digit_immediate]

/-! ## The opcode map -/

/-- The decoder on a negative word (rule R60). -/
theorem decode_of_neg {w : Word} (h : w.toInt < 0) : decode w = .error (.negativeInstructionWord w) := if_pos h

/-- The decoder on a non-negative word reads its digits. -/
theorem decode_of_nonneg {w : Word} (h : 0 ≤ w.toInt) : decode w = decodeDigits w.toNat := if_neg (not_lt.mpr h)

/-- What the opcode map answers, by opcode: the inversion of `decodeDigits`. -/
theorem decodeDigits_cases (w : Nat) :
    (opcodeOf w = 1 ∧ decodeDigits w = decodeF3 w .add) ∨
    (opcodeOf w = 2 ∧ decodeDigits w = decodeF3 w .multiply) ∨
    (opcodeOf w = 3 ∧ decodeDigits w = decodeF1Destination w .saveInput) ∨
    (opcodeOf w = 4 ∧ decodeDigits w = decodeF1Source w .output) ∨
    (opcodeOf w = 5 ∧ decodeDigits w = decodeF2 w .jumpIfTrue) ∨
    (opcodeOf w = 6 ∧ decodeDigits w = decodeF2 w .jumpIfFalse) ∨
    (opcodeOf w = 7 ∧ decodeDigits w = decodeF3 w .lessThan) ∨
    (opcodeOf w = 8 ∧ decodeDigits w = decodeF3 w .equals) ∨
    (opcodeOf w = 9 ∧ decodeDigits w = decodeF1Source w .adjustRelative) ∨
    (opcodeOf w = 99 ∧ decodeDigits w = .ok .halt) ∨
    (unknownOpcode (opcodeOf w) = true ∧ decodeDigits w = .ok (.unknownOperation (opcodeOf w))) := by
  have hlt : opcodeOf w < 100 := Nat.mod_lt _ (by decide)
  unfold decodeDigits
  split
  case h_11 h1 h2 h3 h4 h5 h6 h7 h8 h9 h99 =>
    have hu : unknownOpcode (opcodeOf w) = true := by
      simp only [unknownOpcode, Bool.or_eq_true, beq_iff_eq, Bool.and_eq_true, decide_eq_true_eq]
      by_contra hc
      have : opcodeOf w ≠ 1 ∧ opcodeOf w ≠ 2 ∧ opcodeOf w ≠ 3 ∧ opcodeOf w ≠ 4 ∧ opcodeOf w ≠ 5 ∧ opcodeOf w ≠ 6 ∧
        opcodeOf w ≠ 7 ∧ opcodeOf w ≠ 8 ∧ opcodeOf w ≠ 9 ∧ opcodeOf w ≠ 99 := ⟨h1, h2, h3, h4, h5, h6, h7, h8, h9, h99⟩
      omega
    simp [hu]
  all_goals simp [*]

/-- Every rejection: a negative word, a mode digit above 2 of an operand, or an Immediate destination. -/
theorem decode_error_cases {w : Word} {d : DecodeFault} (h : decode w = .error d) :
    (w.toInt < 0 ∧ d = .negativeInstructionWord w) ∨
    (∃ k, (1 ≤ k ∧ k ≤ 3) ∧ 3 ≤ digit (k + 1) w.toNat ∧ d = .illegalMode k (digit (k + 1) w.toNat)) ∨
    (∃ k, (k = 1 ∨ k = 3) ∧ d = .immediateWriteTarget k) := by
  rcases lt_or_ge w.toInt 0 with hw | hw
  · rw [decode_of_neg hw] at h
    cases h
    exact Or.inl ⟨hw, rfl⟩
  · rw [decode_of_nonneg hw] at h
    generalize w.toNat = n at h ⊢
    refine Or.inr ?_
    have hF3 : ∀ mk, decodeF3 n mk = .error d →
        (∃ k, (1 ≤ k ∧ k ≤ 3) ∧ 3 ≤ digit (k + 1) n ∧ d = .illegalMode k (digit (k + 1) n)) ∨
        (∃ k, (k = 1 ∨ k = 3) ∧ d = .immediateWriteTarget k) := fun mk h => by
      rcases decodeF3_eq_error_iff.mp h with h | h | h | h
      exacts [Or.inl ⟨1, by decide, h⟩, Or.inl ⟨2, by decide, h.2⟩, Or.inl ⟨3, by decide, h.2.2⟩,
        Or.inr ⟨3, Or.inr rfl, h.2.2.2⟩]
    rcases decodeDigits_cases n with ⟨-, hd⟩ | ⟨-, hd⟩ | ⟨-, hd⟩ | ⟨-, hd⟩ | ⟨-, hd⟩ | ⟨-, hd⟩ | ⟨-, hd⟩ |
      ⟨-, hd⟩ | ⟨-, hd⟩ | ⟨-, hd⟩ | ⟨-, hd⟩ <;> rw [hd] at h
    · exact hF3 _ h
    · exact hF3 _ h
    · rcases decodeF1Destination_eq_error_iff.mp h with h | h
      exacts [Or.inl ⟨1, by decide, h⟩, Or.inr ⟨1, Or.inl rfl, h.2⟩]
    · exact Or.inl ⟨1, by decide, decodeF1Source_eq_error_iff.mp h⟩
    · rcases decodeF2_eq_error_iff.mp h with h | h
      exacts [Or.inl ⟨1, by decide, h⟩, Or.inl ⟨2, by decide, h.2⟩]
    · rcases decodeF2_eq_error_iff.mp h with h | h
      exacts [Or.inl ⟨1, by decide, h⟩, Or.inl ⟨2, by decide, h.2⟩]
    · exact hF3 _ h
    · exact hF3 _ h
    · exact Or.inl ⟨1, by decide, decodeF1Source_eq_error_iff.mp h⟩
    · cases h
    · cases h

end Sys2Proof
end

