-- ==== Sys2Proof/Laws/State.lean ====
section
/-! SUPPORT. One lemma per field per update, each true by unfolding once, so that no proof unfolds a record update. -/
namespace Sys2Proof.Machine.State

/-! ## writeCell -/

@[simp] theorem writeCell_mem (s : State) (t : Nat) (v : Word) : (s.writeCell t v).mem = s.mem.write t v := rfl
@[simp] theorem writeCell_memSize (s : State) (t : Nat) (v : Word) : (s.writeCell t v).memSize = s.memSize := rfl
@[simp] theorem writeCell_pc (s : State) (t : Nat) (v : Word) : (s.writeCell t v).pc = s.pc := rfl
@[simp] theorem writeCell_rb (s : State) (t : Nat) (v : Word) : (s.writeCell t v).rb = s.rb := rfl
@[simp] theorem writeCell_fsm (s : State) (t : Nat) (v : Word) : (s.writeCell t v).fsm = s.fsm := rfl
@[simp] theorem writeCell_xv (s : State) (t : Nat) (v : Word) : (s.writeCell t v).xv = s.xv := rfl
@[simp] theorem writeCell_xin (s : State) (t : Nat) (v : Word) : (s.writeCell t v).xin = s.xin := rfl
@[simp] theorem writeCell_sig (s : State) (t : Nat) (v : Word) : (s.writeCell t v).sig = s.sig := rfl
@[simp] theorem writeCell_flt (s : State) (t : Nat) (v : Word) : (s.writeCell t v).flt = s.flt := rfl
@[simp] theorem writeCell_inCall (s : State) (t : Nat) (v : Word) : (s.writeCell t v).inCall = s.inCall := rfl
@[simp] theorem writeCell_requests (s : State) (t : Nat) (v : Word) : (s.writeCell t v).requests = s.requests := rfl
@[simp] theorem writeCell_results (s : State) (t : Nat) (v : Word) : (s.writeCell t v).results = s.results := rfl

/-! ## advance -/

@[simp] theorem advance_mem (s : State) (n : Nat) : (s.advance n).mem = s.mem := rfl
@[simp] theorem advance_memSize (s : State) (n : Nat) : (s.advance n).memSize = s.memSize := rfl
@[simp] theorem advance_pc (s : State) (n : Nat) : (s.advance n).pc = s.pc + BitVec.ofNat 64 n := rfl
@[simp] theorem advance_rb (s : State) (n : Nat) : (s.advance n).rb = s.rb := rfl
@[simp] theorem advance_fsm (s : State) (n : Nat) : (s.advance n).fsm = s.fsm := rfl
@[simp] theorem advance_xv (s : State) (n : Nat) : (s.advance n).xv = s.xv := rfl
@[simp] theorem advance_xin (s : State) (n : Nat) : (s.advance n).xin = s.xin := rfl
@[simp] theorem advance_sig (s : State) (n : Nat) : (s.advance n).sig = s.sig := rfl
@[simp] theorem advance_flt (s : State) (n : Nat) : (s.advance n).flt = s.flt := rfl
@[simp] theorem advance_inCall (s : State) (n : Nat) : (s.advance n).inCall = s.inCall := rfl
@[simp] theorem advance_requests (s : State) (n : Nat) : (s.advance n).requests = s.requests := rfl
@[simp] theorem advance_results (s : State) (n : Nat) : (s.advance n).results = s.results := rfl

/-! ## jump -/

@[simp] theorem jump_mem (s : State) (v : Word) : (s.jump v).mem = s.mem := rfl
@[simp] theorem jump_memSize (s : State) (v : Word) : (s.jump v).memSize = s.memSize := rfl
@[simp] theorem jump_pc (s : State) (v : Word) : (s.jump v).pc = v := rfl
@[simp] theorem jump_rb (s : State) (v : Word) : (s.jump v).rb = s.rb := rfl
@[simp] theorem jump_fsm (s : State) (v : Word) : (s.jump v).fsm = s.fsm := rfl
@[simp] theorem jump_xv (s : State) (v : Word) : (s.jump v).xv = s.xv := rfl
@[simp] theorem jump_xin (s : State) (v : Word) : (s.jump v).xin = s.xin := rfl
@[simp] theorem jump_sig (s : State) (v : Word) : (s.jump v).sig = s.sig := rfl
@[simp] theorem jump_flt (s : State) (v : Word) : (s.jump v).flt = s.flt := rfl
@[simp] theorem jump_inCall (s : State) (v : Word) : (s.jump v).inCall = s.inCall := rfl
@[simp] theorem jump_requests (s : State) (v : Word) : (s.jump v).requests = s.requests := rfl
@[simp] theorem jump_results (s : State) (v : Word) : (s.jump v).results = s.results := rfl

/-! ## setRb -/

@[simp] theorem setRb_mem (s : State) (v : Word) : (s.setRb v).mem = s.mem := rfl
@[simp] theorem setRb_memSize (s : State) (v : Word) : (s.setRb v).memSize = s.memSize := rfl
@[simp] theorem setRb_pc (s : State) (v : Word) : (s.setRb v).pc = s.pc := rfl
@[simp] theorem setRb_rb (s : State) (v : Word) : (s.setRb v).rb = v := rfl
@[simp] theorem setRb_fsm (s : State) (v : Word) : (s.setRb v).fsm = s.fsm := rfl
@[simp] theorem setRb_xv (s : State) (v : Word) : (s.setRb v).xv = s.xv := rfl
@[simp] theorem setRb_xin (s : State) (v : Word) : (s.setRb v).xin = s.xin := rfl
@[simp] theorem setRb_sig (s : State) (v : Word) : (s.setRb v).sig = s.sig := rfl
@[simp] theorem setRb_flt (s : State) (v : Word) : (s.setRb v).flt = s.flt := rfl
@[simp] theorem setRb_inCall (s : State) (v : Word) : (s.setRb v).inCall = s.inCall := rfl
@[simp] theorem setRb_requests (s : State) (v : Word) : (s.setRb v).requests = s.requests := rfl
@[simp] theorem setRb_results (s : State) (v : Word) : (s.setRb v).results = s.results := rfl

/-! ## consumeInput -/

@[simp] theorem consumeInput_mem (s : State) : (s.consumeInput).mem = s.mem := rfl
@[simp] theorem consumeInput_memSize (s : State) : (s.consumeInput).memSize = s.memSize := rfl
@[simp] theorem consumeInput_pc (s : State) : (s.consumeInput).pc = s.pc := rfl
@[simp] theorem consumeInput_rb (s : State) : (s.consumeInput).rb = s.rb := rfl
@[simp] theorem consumeInput_fsm (s : State) : (s.consumeInput).fsm = s.fsm := rfl
@[simp] theorem consumeInput_xv (s : State) : (s.consumeInput).xv = false := rfl
@[simp] theorem consumeInput_xin (s : State) : (s.consumeInput).xin = s.xin := rfl
@[simp] theorem consumeInput_sig (s : State) : (s.consumeInput).sig = s.sig := rfl
@[simp] theorem consumeInput_flt (s : State) : (s.consumeInput).flt = s.flt := rfl
@[simp] theorem consumeInput_inCall (s : State) : (s.consumeInput).inCall = s.inCall := rfl
@[simp] theorem consumeInput_requests (s : State) : (s.consumeInput).requests = s.requests := rfl
@[simp] theorem consumeInput_results (s : State) : (s.consumeInput).results = s.results := rfl

/-! ## endCall -/

@[simp] theorem endCall_mem (s : State) (q : RunState) (r : CallResult) : (s.endCall q r).mem = s.mem := rfl
@[simp] theorem endCall_memSize (s : State) (q : RunState) (r : CallResult) : (s.endCall q r).memSize = s.memSize := rfl
@[simp] theorem endCall_pc (s : State) (q : RunState) (r : CallResult) : (s.endCall q r).pc = s.pc := rfl
@[simp] theorem endCall_rb (s : State) (q : RunState) (r : CallResult) : (s.endCall q r).rb = s.rb := rfl
@[simp] theorem endCall_fsm (s : State) (q : RunState) (r : CallResult) : (s.endCall q r).fsm = q := rfl
@[simp] theorem endCall_xv (s : State) (q : RunState) (r : CallResult) : (s.endCall q r).xv = false := rfl
@[simp] theorem endCall_xin (s : State) (q : RunState) (r : CallResult) : (s.endCall q r).xin = s.xin := rfl
@[simp] theorem endCall_sig (s : State) (q : RunState) (r : CallResult) : (s.endCall q r).sig = s.sig := rfl
@[simp] theorem endCall_flt (s : State) (q : RunState) (r : CallResult) : (s.endCall q r).flt = s.flt := rfl
@[simp] theorem endCall_inCall (s : State) (q : RunState) (r : CallResult) : (s.endCall q r).inCall = false := rfl
@[simp] theorem endCall_requests (s : State) (q : RunState) (r : CallResult) : (s.endCall q r).requests = s.requests := rfl
@[simp] theorem endCall_results (s : State) (q : RunState) (r : CallResult) : (s.endCall q r).results = s.results ++ [r] := rfl

/-! ## answer -/

@[simp] theorem answer_mem (s : State) (r : CallResult) : (s.answer r).mem = s.mem := rfl
@[simp] theorem answer_memSize (s : State) (r : CallResult) : (s.answer r).memSize = s.memSize := rfl
@[simp] theorem answer_pc (s : State) (r : CallResult) : (s.answer r).pc = s.pc := rfl
@[simp] theorem answer_rb (s : State) (r : CallResult) : (s.answer r).rb = s.rb := rfl
@[simp] theorem answer_fsm (s : State) (r : CallResult) : (s.answer r).fsm = s.fsm := rfl
@[simp] theorem answer_xv (s : State) (r : CallResult) : (s.answer r).xv = s.xv := rfl
@[simp] theorem answer_xin (s : State) (r : CallResult) : (s.answer r).xin = s.xin := rfl
@[simp] theorem answer_sig (s : State) (r : CallResult) : (s.answer r).sig = s.sig := rfl
@[simp] theorem answer_flt (s : State) (r : CallResult) : (s.answer r).flt = s.flt := rfl
@[simp] theorem answer_inCall (s : State) (r : CallResult) : (s.answer r).inCall = s.inCall := rfl
@[simp] theorem answer_requests (s : State) (r : CallResult) : (s.answer r).requests = s.requests := rfl
@[simp] theorem answer_results (s : State) (r : CallResult) : (s.answer r).results = s.results ++ [r] := rfl

/-! ## suspend -/

@[simp] theorem suspend_mem (s : State) (v : Word) : (s.suspend v).mem = s.mem := rfl
@[simp] theorem suspend_memSize (s : State) (v : Word) : (s.suspend v).memSize = s.memSize := rfl
@[simp] theorem suspend_pc (s : State) (v : Word) : (s.suspend v).pc = s.pc := rfl
@[simp] theorem suspend_rb (s : State) (v : Word) : (s.suspend v).rb = s.rb := rfl
@[simp] theorem suspend_fsm (s : State) (v : Word) : (s.suspend v).fsm = .suspended := rfl
@[simp] theorem suspend_xv (s : State) (v : Word) : (s.suspend v).xv = false := rfl
@[simp] theorem suspend_xin (s : State) (v : Word) : (s.suspend v).xin = s.xin := rfl
@[simp] theorem suspend_sig (s : State) (v : Word) : (s.suspend v).sig = s.sig := rfl
@[simp] theorem suspend_flt (s : State) (v : Word) : (s.suspend v).flt = s.flt := rfl
@[simp] theorem suspend_inCall (s : State) (v : Word) : (s.suspend v).inCall = false := rfl
@[simp] theorem suspend_requests (s : State) (v : Word) : (s.suspend v).requests = s.requests := rfl
@[simp] theorem suspend_results (s : State) (v : Word) : (s.suspend v).results = s.results ++ [.value v] := rfl

/-! ## stop -/

@[simp] theorem stop_mem (s : State) : (s.stop).mem = s.mem := rfl
@[simp] theorem stop_memSize (s : State) : (s.stop).memSize = s.memSize := rfl
@[simp] theorem stop_pc (s : State) : (s.stop).pc = s.pc := rfl
@[simp] theorem stop_rb (s : State) : (s.stop).rb = s.rb := rfl
@[simp] theorem stop_fsm (s : State) : (s.stop).fsm = .halted := rfl
@[simp] theorem stop_xv (s : State) : (s.stop).xv = false := rfl
@[simp] theorem stop_xin (s : State) : (s.stop).xin = s.xin := rfl
@[simp] theorem stop_sig (s : State) : (s.stop).sig = s.sig := rfl
@[simp] theorem stop_flt (s : State) : (s.stop).flt = s.flt := rfl
@[simp] theorem stop_inCall (s : State) : (s.stop).inCall = false := rfl
@[simp] theorem stop_requests (s : State) : (s.stop).requests = s.requests := rfl
@[simp] theorem stop_results (s : State) : (s.stop).results = s.results ++ [.noValue] := rfl

/-! ## takeFault -/

@[simp] theorem takeFault_mem (s : State) (f : FaultRecord) : (s.takeFault f).mem = s.mem := rfl
@[simp] theorem takeFault_memSize (s : State) (f : FaultRecord) : (s.takeFault f).memSize = s.memSize := rfl
@[simp] theorem takeFault_pc (s : State) (f : FaultRecord) : (s.takeFault f).pc = s.pc := rfl
@[simp] theorem takeFault_rb (s : State) (f : FaultRecord) : (s.takeFault f).rb = s.rb := rfl
@[simp] theorem takeFault_fsm (s : State) (f : FaultRecord) : (s.takeFault f).fsm = .faulted := rfl
@[simp] theorem takeFault_xv (s : State) (f : FaultRecord) : (s.takeFault f).xv = false := rfl
@[simp] theorem takeFault_xin (s : State) (f : FaultRecord) : (s.takeFault f).xin = s.xin := rfl
@[simp] theorem takeFault_sig (s : State) (f : FaultRecord) : (s.takeFault f).sig = s.sig := rfl
@[simp] theorem takeFault_flt (s : State) (f : FaultRecord) : (s.takeFault f).flt = some f := rfl
@[simp] theorem takeFault_inCall (s : State) (f : FaultRecord) : (s.takeFault f).inCall = false := rfl
@[simp] theorem takeFault_requests (s : State) (f : FaultRecord) : (s.takeFault f).requests = s.requests := rfl
@[simp] theorem takeFault_results (s : State) (f : FaultRecord) : (s.takeFault f).results = s.results ++ [.fault f] := rfl

/-! ## latch -/

@[simp] theorem latch_mem (s : State) (x : Option Word) (y : Word) : (s.latch x y).mem = s.mem := rfl
@[simp] theorem latch_memSize (s : State) (x : Option Word) (y : Word) : (s.latch x y).memSize = s.memSize := rfl
@[simp] theorem latch_pc (s : State) (x : Option Word) (y : Word) : (s.latch x y).pc = s.pc := rfl
@[simp] theorem latch_rb (s : State) (x : Option Word) (y : Word) : (s.latch x y).rb = s.rb := rfl
@[simp] theorem latch_fsm (s : State) (x : Option Word) (y : Word) : (s.latch x y).fsm = .running := rfl
@[simp] theorem latch_xv (s : State) (x : Option Word) (y : Word) : (s.latch x y).xv = x.isSome := rfl
@[simp] theorem latch_xin (s : State) (x : Option Word) (y : Word) : (s.latch x y).xin = x.getD s.xin := rfl
@[simp] theorem latch_sig (s : State) (x : Option Word) (y : Word) : (s.latch x y).sig = y := rfl
@[simp] theorem latch_flt (s : State) (x : Option Word) (y : Word) : (s.latch x y).flt = s.flt := rfl
@[simp] theorem latch_inCall (s : State) (x : Option Word) (y : Word) : (s.latch x y).inCall = true := rfl
@[simp] theorem latch_requests (s : State) (x : Option Word) (y : Word) : (s.latch x y).requests = s.requests := rfl
@[simp] theorem latch_results (s : State) (x : Option Word) (y : Word) : (s.latch x y).results = s.results := rfl

end Sys2Proof.Machine.State
end

