-- ==== Sys2Proof/Laws/Memory.lean ====
section
/-! SUPPORT. The laws of memory: a read after a write, the canonical form, equal reads mean equal memories. -/
namespace Sys2Proof.Machine.Memory

theorem wf_nil : wf [] := ⟨List.Pairwise.nil, by simp⟩

theorem wf_tail {c : Nat × Word} {m : Memory} (h : wf (c :: m)) : wf m :=
  ⟨(List.pairwise_cons.mp h.1).2, fun d hd => h.2 d (List.mem_cons_of_mem c hd)⟩

theorem wf_head_lt {c : Nat × Word} {m : Memory} (h : wf (c :: m)) : ∀ d ∈ m, c.1 < d.1 :=
  (List.pairwise_cons.mp h.1).1

theorem wf_cons_iff {a : Nat} {v : Word} {m : Memory} :
    wf ((a, v) :: m) ↔ v ≠ 0 ∧ (∀ d ∈ m, a < d.1) ∧ wf m := by
  simp only [wf, List.pairwise_cons, List.mem_cons, forall_eq_or_imp]
  tauto

/-- A cell below every listed one holds 0. -/
theorem read_eq_zero_of_lt {m : Memory} {a : Nat} (h : ∀ d ∈ m, a < d.1) : m.read a = 0 := by
  induction m with
  | nil => rfl
  | cons c m ih =>
    have hc := h c (List.mem_cons_self ..)
    simp only [read, if_neg (show ¬a = c.1 by omega)]
    exact ih fun d hd => h d (List.mem_cons_of_mem c hd)

theorem read_cons_self {a : Nat} {v : Word} {m : Memory} (h : ∀ d ∈ m, a < d.1) : (cons a v m).read a = v := by
  unfold cons
  split
  · simp_all [read_eq_zero_of_lt h]
  · simp [read]

theorem read_cons_of_ne {a b : Nat} {v : Word} {m : Memory} (h : b ≠ a) : (cons a v m).read b = m.read b := by
  unfold cons
  split <;> simp [read, h]

theorem mem_cons {a : Nat} {v : Word} {m : Memory} {c : Nat × Word} (h : c ∈ cons a v m) : c = (a, v) ∨ c ∈ m := by
  unfold cons at h
  split at h
  · exact Or.inr h
  · simpa using h

theorem wf_cons_cell {a : Nat} {v : Word} {m : Memory} (hm : wf m) (h : ∀ d ∈ m, a < d.1) : wf (cons a v m) := by
  unfold cons
  split
  · exact hm
  · exact wf_cons_iff.mpr ⟨‹_›, h, hm⟩

/-- A written memory lists the written cell or cells that were listed. -/
theorem mem_write {m : Memory} {a : Nat} {v : Word} {c : Nat × Word} (h : c ∈ m.write a v) : c = (a, v) ∨ c ∈ m := by
  induction m with
  | nil => simpa using mem_cons h
  | cons d m ih =>
    simp only [write] at h
    split at h
    · exact mem_cons h
    · split at h
      · rcases mem_cons h with h | h
        · exact Or.inl h
        · exact Or.inr (List.mem_cons_of_mem d h)
      · rcases List.mem_cons.mp h with h | h
        · exact Or.inr (h ▸ List.mem_cons_self ..)
        · exact (ih h).imp id (List.mem_cons_of_mem d)

/-- A write keeps the canonical form. -/
theorem wf_write {m : Memory} (h : wf m) (a : Nat) (v : Word) : wf (m.write a v) := by
  induction m with
  | nil => exact wf_cons_cell wf_nil (by simp)
  | cons d m ih =>
    have hd := wf_head_lt h
    simp only [write]
    split
    · refine wf_cons_cell h fun e he => ?_
      rcases List.mem_cons.mp he with he | he
      · exact he ▸ ‹_›
      · exact lt_trans ‹_› (hd e he)
    · split
      · rename_i heq
        exact wf_cons_cell (wf_tail h) (heq ▸ hd)
      · refine wf_cons_iff.mpr ⟨h.2 d (List.mem_cons_self ..), fun e he => ?_, ih (wf_tail h)⟩
        rcases mem_write he with he | he
        · subst he
          exact lt_of_le_of_ne (Nat.le_of_not_lt ‹_›) (Ne.symm ‹_›)
        · exact hd e he

/-- A written cell holds the value written. -/
theorem read_write_same {m : Memory} (h : wf m) (a : Nat) (v : Word) : (m.write a v).read a = v := by
  induction m with
  | nil => exact read_cons_self (by simp)
  | cons d m ih =>
    have hd := wf_head_lt h
    simp only [write]
    split
    · refine read_cons_self fun e he => ?_
      rcases List.mem_cons.mp he with he | he
      · exact he ▸ ‹_›
      · exact lt_trans ‹_› (hd e he)
    · split
      · rename_i heq
        exact read_cons_self (heq ▸ hd)
      · simp only [read, if_neg ‹¬a = d.1›]
        exact ih (wf_tail h)

/-- A write leaves every other cell alone. -/
theorem read_write_other (m : Memory) {a b : Nat} (v : Word) (h : b ≠ a) : (m.write a v).read b = m.read b := by
  induction m with
  | nil => exact read_cons_of_ne h
  | cons d m ih =>
    simp only [write]
    split
    · exact read_cons_of_ne h
    · split
      · rename_i heq
        rw [read_cons_of_ne h]
        simp only [read, if_neg (show ¬b = d.1 from heq ▸ h)]
      · simp only [read, ih]

/-- A write inside the machine lists no cell outside it. -/
theorem write_inside {m : Memory} {n a : Nat} (h : ∀ c ∈ m, c.1 < n) (ha : a < n) (v : Word) :
    ∀ c ∈ m.write a v, c.1 < n := fun c hc => by
  rcases mem_write hc with rfl | hc
  · exact ha
  · exact h c hc

/-- The cells of an image lie from its base up, and not beyond its end. -/
theorem mem_ofCells {vs : List Word} {base : Nat} : ∀ c ∈ ofCells base vs, base ≤ c.1 ∧ c.1 < base + vs.length := by
  induction vs generalizing base with
  | nil => simp [ofCells]
  | cons v vs ih =>
    intro c hc
    rcases mem_cons hc with rfl | hc
    · simp
    · have := ih c hc
      simp only [List.length_cons]
      omega

theorem wf_ofCells (base : Nat) (vs : List Word) : wf (ofCells base vs) := by
  induction vs generalizing base with
  | nil => exact wf_nil
  | cons v vs ih => exact wf_cons_cell (ih _) fun d hd => (mem_ofCells d hd).1

/-- Cell `base + i` of an image holds its element `i`, and 0 beyond the end. -/
theorem read_ofCells (base i : Nat) (vs : List Word) : (ofCells base vs).read (base + i) = vs.getD i 0 := by
  induction vs generalizing base i with
  | nil => simp [ofCells, read]
  | cons v vs ih =>
    have hlt : ∀ d ∈ ofCells (base + 1) vs, base < d.1 := fun d hd => (mem_ofCells d hd).1
    cases i with
    | zero => simpa [ofCells] using read_cons_self hlt
    | succ i =>
      have := ih (base + 1) i
      rw [ofCells, read_cons_of_ne (by omega), show base + (i + 1) = base + 1 + i by omega, this]
      simp

theorem wf_writeList {m : Memory} (h : wf m) (base : Nat) (vs : List Word) : wf (m.writeList base vs) := by
  induction vs generalizing m base with
  | nil => exact h
  | cons v vs ih => exact ih (wf_write h base v) (base + 1)

/-- Canonical memories that read alike are equal. -/
theorem ext_read {m n : Memory} (hm : wf m) (hn : wf n) (h : ∀ a, m.read a = n.read a) : m = n := by
  induction m generalizing n with
  | nil =>
    cases n with
    | nil => rfl
    | cons d n => exact absurd (by simpa [read] using (h d.1).symm) (hn.2 d (List.mem_cons_self ..))
  | cons c m ih =>
    cases n with
    | nil => exact absurd (by simpa [read] using h c.1) (hm.2 c (List.mem_cons_self ..))
    | cons d n =>
      obtain ⟨a, u⟩ := c
      obtain ⟨b, v⟩ := d
      obtain ⟨hu, ha, hm'⟩ := wf_cons_iff.mp hm
      obtain ⟨hv, hb, hn'⟩ := wf_cons_iff.mp hn
      have hab : a = b := by
        rcases lt_trichotomy a b with hlt | heq | hgt
        · have h0 : read ((b, v) :: n) a = 0 := read_eq_zero_of_lt fun e he => by
            rcases List.mem_cons.mp he with rfl | he
            · exact hlt
            · exact lt_trans hlt (hb e he)
          exact absurd (by simpa [read] using (h a).trans h0) hu
        · exact heq
        · have h0 : read ((a, u) :: m) b = 0 := read_eq_zero_of_lt fun e he => by
            rcases List.mem_cons.mp he with rfl | he
            · exact hgt
            · exact lt_trans hgt (ha e he)
          exact absurd (by simpa [read] using (h b).symm.trans h0) hv
      subst hab
      have huv : u = v := by simpa [read] using h a
      subst huv
      refine congrArg _ (ih hm' hn' fun e => ?_)
      by_cases hea : e = a
      · subst hea
        rw [read_eq_zero_of_lt ha, read_eq_zero_of_lt hb]
      · simpa [read, hea] using h e

/-- The image of `n` zero cells lists nothing. -/
theorem ofCells_replicate_zero (base n : Nat) : ofCells base (List.replicate n 0) = [] := by
  induction n generalizing base with
  | zero => rfl
  | succ n ih =>
    rw [List.replicate_succ, ofCells, cons, if_pos rfl]
    exact ih (base + 1)

end Sys2Proof.Machine.Memory

namespace Sys2Proof.Machine

/-- The machine at reset is the one created from the largest image of zero cells (log entry 2). -/
theorem reset_eq_create : State.reset = State.create (List.replicate Config.maxMemSize 0) := by
  simp only [State.create, Memory.ofCells_replicate_zero, List.length_replicate, State.reset]

end Sys2Proof.Machine
end

