-- ==== Sys2Proof/Laws/Operands.lean ====
section
/-! SUPPORT. One lemma per operation of the resolver, saying when it answers what, in the terms of Safety.lean. -/
namespace Sys2Proof.Machine

/-! ## Checked accesses -/

theorem check_eq_ok_iff {ε α : Type} {p : Prop} [Decidable p] {x y : α} {e : ε} :
    (if p then Except.ok x else .error e) = .ok y ↔ p ∧ y = x := by
  split <;> simp [eq_comm, *]

theorem check_eq_error_iff {ε α : Type} {p : Prop} [Decidable p] {x : α} {e f : ε} :
    (if p then Except.ok x else .error e) = .error f ↔ ¬p ∧ f = e := by
  split <;> simp [eq_comm, *]

theorem cellIndex_eq_ok_iff {s : State} {k : Nat} {a : Int} {t : Nat} :
    s.cellIndex k a = .ok t ↔ s.InRange a ∧ t = a.toNat := check_eq_ok_iff

theorem cellIndex_eq_error_iff {s : State} {k : Nat} {a : Int} {f : FaultRecord} :
    s.cellIndex k a = .error f ↔ ¬s.InRange a ∧ f = ⟨.outOfRangeAccess, k, a⟩ := check_eq_error_iff

theorem readCell_eq {s : State} {k : Nat} {a : Int} :
    s.readCell k a = if s.InRange a then .ok (s.mem.read a.toNat) else .error ⟨.outOfRangeAccess, k, a⟩ := by
  unfold State.readCell State.cellIndex
  split <;> rename_i h <;> split at h <;> simp_all

theorem readCell_eq_ok_iff {s : State} {k : Nat} {a : Int} {v : Word} :
    s.readCell k a = .ok v ↔ s.InRange a ∧ v = s.mem.read a.toNat := by
  rw [readCell_eq, check_eq_ok_iff]

theorem readCell_eq_error_iff {s : State} {k : Nat} {a : Int} {f : FaultRecord} :
    s.readCell k a = .error f ↔ ¬s.InRange a ∧ f = ⟨.outOfRangeAccess, k, a⟩ := by
  rw [readCell_eq, check_eq_error_iff]

/-! ## One operand -/

theorem operandWord_eq_ok_iff {s : State} {k : Nat} {r : Word} :
    operandWord s k = .ok r ↔ s.InRange (s.pc.toInt + k) ∧ r = rawOperand s k := readCell_eq_ok_iff

theorem operandWord_eq_error_iff {s : State} {k : Nat} {f : FaultRecord} :
    operandWord s k = .error f ↔ ¬s.InRange (s.pc.toInt + k) ∧ f = ⟨.outOfRangeAccess, k, s.pc.toInt + k⟩ :=
  readCell_eq_error_iff

theorem readOperand_eq_ok_iff {s : State} {k : Nat} {m : Mode} {v : Word} :
    readOperand s k m (rawOperand s k) = .ok v ↔
      (∀ a ∈ effectiveAddress s m (rawOperand s k), s.InRange a) ∧ v = sourceValue s k m := by
  unfold readOperand sourceValue
  cases effectiveAddress s m (rawOperand s k) with
  | none => simp [eq_comm]
  | some a => simp [readCell_eq_ok_iff]

theorem readOperand_eq_error_iff {s : State} {k : Nat} {m : Mode} {r : Word} {f : FaultRecord} :
    readOperand s k m r = .error f ↔
      ∃ a, effectiveAddress s m r = some a ∧ ¬s.InRange a ∧ f = ⟨.outOfRangeAccess, k, a⟩ := by
  unfold readOperand
  cases effectiveAddress s m r with
  | none => simp
  | some a => simp [readCell_eq_error_iff]

theorem writeTarget_eq_ok_iff {s : State} {k : Nat} {m : Mode} {r : Word} {t : Nat} :
    writeTarget s k m r = .ok t ↔ ∃ a, effectiveAddress s m r = some a ∧ s.InRange a ∧ t = a.toNat := by
  unfold writeTarget
  cases effectiveAddress s m r with
  | none => simp
  | some a => simp [cellIndex_eq_ok_iff]

theorem writeTarget_eq_error_iff {s : State} {k : Nat} {m : Mode} {r : Word} {f : FaultRecord} :
    writeTarget s k m r = .error f ↔
      (effectiveAddress s m r = none ∧ f = ⟨.immediateWriteTarget, k, 1⟩) ∨
      ∃ a, effectiveAddress s m r = some a ∧ ¬s.InRange a ∧ f = ⟨.outOfRangeAccess, k, a⟩ := by
  unfold writeTarget
  cases effectiveAddress s m r with
  | none => simp [eq_comm]
  | some a => simp [cellIndex_eq_error_iff]

/-! ## All operands of an instruction -/

theorem resolveSource_eq_ok_iff {s : State} {m1 : Mode} {v : Word} :
    resolveSource s m1 = .ok v ↔ SourceReadable s 1 m1 ∧ v = sourceValue s 1 m1 := by
  simp only [resolveSource, bind_eq_ok_iff, operandWord_eq_ok_iff]
  constructor
  · rintro ⟨r, ⟨h, rfl⟩, hv⟩
    obtain ⟨ha, hv⟩ := readOperand_eq_ok_iff.mp hv
    exact ⟨⟨h, ha⟩, hv⟩
  · rintro ⟨⟨h, ha⟩, hv⟩
    exact ⟨_, ⟨h, rfl⟩, readOperand_eq_ok_iff.mpr ⟨ha, hv⟩⟩

theorem resolveDestination_eq_ok_iff {s : State} {m1 : Mode} {t : Nat} :
    resolveDestination s m1 = .ok t ↔ ∃ a, DestinationAt s 1 m1 a ∧ t = a.toNat := by
  simp only [resolveDestination, bind_eq_ok_iff, operandWord_eq_ok_iff, writeTarget_eq_ok_iff]
  constructor
  · rintro ⟨r, ⟨h, rfl⟩, a, ha, hr, ht⟩
    exact ⟨a, ⟨h, ha, hr⟩, ht⟩
  · rintro ⟨a, ⟨h, ha, hr⟩, ht⟩
    exact ⟨_, ⟨h, rfl⟩, a, ha, hr, ht⟩

theorem resolveTwo_eq_ok_iff {s : State} {m1 m2 : Mode} {v1 v2 : Word} :
    resolveTwo s m1 m2 = .ok (v1, v2) ↔
      SourceReadable s 1 m1 ∧ SourceReadable s 2 m2 ∧ v1 = sourceValue s 1 m1 ∧ v2 = sourceValue s 2 m2 := by
  simp only [resolveTwo, bind_eq_ok_iff, operandWord_eq_ok_iff, pure_eq_ok, Except.ok.injEq, Prod.mk.injEq]
  constructor
  · rintro ⟨_, ⟨h1, rfl⟩, _, ⟨h2, rfl⟩, _, hv1, _, hv2, rfl, rfl⟩
    obtain ⟨ha1, hv1⟩ := readOperand_eq_ok_iff.mp hv1
    obtain ⟨ha2, hv2⟩ := readOperand_eq_ok_iff.mp hv2
    exact ⟨⟨h1, ha1⟩, ⟨h2, ha2⟩, hv1, hv2⟩
  · rintro ⟨⟨h1, ha1⟩, ⟨h2, ha2⟩, hv1, hv2⟩
    exact ⟨_, ⟨h1, rfl⟩, _, ⟨h2, rfl⟩, _, readOperand_eq_ok_iff.mpr ⟨ha1, hv1⟩, _,
      readOperand_eq_ok_iff.mpr ⟨ha2, hv2⟩, rfl, rfl⟩

theorem resolveThree_eq_ok_iff {s : State} {m1 m2 m3 : Mode} {v1 v2 : Word} {t : Nat} :
    resolveThree s m1 m2 m3 = .ok (v1, v2, t) ↔
      SourceReadable s 1 m1 ∧ SourceReadable s 2 m2 ∧ (∃ a, DestinationAt s 3 m3 a ∧ t = a.toNat) ∧
        v1 = sourceValue s 1 m1 ∧ v2 = sourceValue s 2 m2 := by
  simp only [resolveThree, bind_eq_ok_iff, operandWord_eq_ok_iff, writeTarget_eq_ok_iff, pure_eq_ok,
    Except.ok.injEq, Prod.mk.injEq]
  constructor
  · rintro ⟨_, ⟨h1, rfl⟩, _, ⟨h2, rfl⟩, _, ⟨h3, rfl⟩, _, hv1, _, hv2, _, ⟨a, ha, hr, rfl⟩, rfl, rfl, rfl⟩
    obtain ⟨ha1, hv1⟩ := readOperand_eq_ok_iff.mp hv1
    obtain ⟨ha2, hv2⟩ := readOperand_eq_ok_iff.mp hv2
    exact ⟨⟨h1, ha1⟩, ⟨h2, ha2⟩, ⟨a, ⟨h3, ha, hr⟩, rfl⟩, hv1, hv2⟩
  · rintro ⟨⟨h1, ha1⟩, ⟨h2, ha2⟩, ⟨a, ⟨h3, ha, hr⟩, rfl⟩, hv1, hv2⟩
    exact ⟨_, ⟨h1, rfl⟩, _, ⟨h2, rfl⟩, _, ⟨h3, rfl⟩, _, readOperand_eq_ok_iff.mpr ⟨ha1, hv1⟩, _,
      readOperand_eq_ok_iff.mpr ⟨ha2, hv2⟩, _, ⟨a, ha, hr, rfl⟩, rfl, rfl, rfl⟩

/-! ## The faults of the resolver are faults of rule R120's table -/

theorem operandWord_error_legal {s : State} {k : Nat} {f : FaultRecord} (h : operandWord s k = .error f) (hk : k ≤ 3) :
    f.Legal s.memSize := by
  obtain ⟨ha, rfl⟩ := operandWord_eq_error_iff.mp h
  exact ⟨hk, ha⟩

theorem readOperand_error_legal {s : State} {k : Nat} {m : Mode} {r : Word} {f : FaultRecord}
    (h : readOperand s k m r = .error f) (hk : k ≤ 3) : f.Legal s.memSize := by
  obtain ⟨a, -, ha, rfl⟩ := readOperand_eq_error_iff.mp h
  exact ⟨hk, ha⟩

theorem writeTarget_error_legal {s : State} {k : Nat} {m : Mode} {r : Word} {f : FaultRecord}
    (h : writeTarget s k m r = .error f) (hk : k = 1 ∨ k = 3) : f.Legal s.memSize := by
  obtain ⟨-, rfl⟩ | ⟨a, -, ha, rfl⟩ := writeTarget_eq_error_iff.mp h
  · exact ⟨hk, rfl⟩
  · exact ⟨by rcases hk with rfl | rfl <;> simp, ha⟩

theorem resolveSource_error_legal {s : State} {m1 : Mode} {f : FaultRecord} (h : resolveSource s m1 = .error f) :
    f.Legal s.memSize := by
  obtain h | ⟨_, _, h⟩ := bind_eq_error_iff.mp h
  exacts [operandWord_error_legal h (by decide), readOperand_error_legal h (by decide)]

theorem resolveDestination_error_legal {s : State} {m1 : Mode} {f : FaultRecord}
    (h : resolveDestination s m1 = .error f) : f.Legal s.memSize := by
  obtain h | ⟨_, _, h⟩ := bind_eq_error_iff.mp h
  exacts [operandWord_error_legal h (by decide), writeTarget_error_legal h (Or.inl rfl)]

theorem resolveTwo_error_legal {s : State} {m1 m2 : Mode} {f : FaultRecord} (h : resolveTwo s m1 m2 = .error f) :
    f.Legal s.memSize := by
  simp only [resolveTwo, bind_eq_error_iff, pure_eq_ok, reduceCtorEq, and_false, exists_false, or_false] at h
  obtain h | ⟨_, _, h | ⟨_, _, h | ⟨_, _, h⟩⟩⟩ := h
  exacts [operandWord_error_legal h (by decide), operandWord_error_legal h (by decide),
    readOperand_error_legal h (by decide), readOperand_error_legal h (by decide)]

theorem resolveThree_error_legal {s : State} {m1 m2 m3 : Mode} {f : FaultRecord}
    (h : resolveThree s m1 m2 m3 = .error f) : f.Legal s.memSize := by
  simp only [resolveThree, bind_eq_error_iff, pure_eq_ok, reduceCtorEq, and_false, exists_false, or_false] at h
  obtain h | ⟨_, _, h | ⟨_, _, h | ⟨_, _, h | ⟨_, _, h | ⟨_, _, h⟩⟩⟩⟩⟩ := h
  exacts [operandWord_error_legal h (by decide), operandWord_error_legal h (by decide),
    operandWord_error_legal h (by decide), readOperand_error_legal h (by decide),
    readOperand_error_legal h (by decide), writeTarget_error_legal h (Or.inr rfl)]

/-! ## Results -/

theorem toInt_ofInt_of_fits {x : Int} (h : FitsInt64 x) : (BitVec.ofInt 64 x).toInt = x := by
  obtain ⟨h1, h2⟩ := h
  simp only [minInt64, maxInt64] at h1 h2
  rw [BitVec.toInt_ofInt, Int.bmod_def]
  omega

theorem fits_toInt (w : Word) : FitsInt64 w.toInt := by
  have h1 := w.toInt_lt
  have h2 := w.le_toInt
  simp only [FitsInt64, minInt64, maxInt64]
  norm_num at h1 h2
  omega

theorem narrow_eq_ok_iff {x : Int} {v : Word} : narrow x = .ok v ↔ FitsInt64 x ∧ v = BitVec.ofInt 64 x :=
  check_eq_ok_iff

theorem narrow_eq_error_iff {x : Int} {f : FaultRecord} :
    narrow x = .error f ↔ ¬FitsInt64 x ∧ f = ⟨.arithmeticOverflow, 0, x⟩ := check_eq_error_iff

theorem narrow_error_legal {x : Int} {f : FaultRecord} (n : Nat) (h : narrow x = .error f) : f.Legal n := by
  obtain ⟨hx, rfl⟩ := narrow_eq_error_iff.mp h
  exact ⟨rfl, hx⟩

theorem toInt_truthValue (p : Bool) : (truthValue p).toInt = if p then 1 else 0 := by cases p <;> rfl

theorem isTrue_iff {v : Word} : isTrue v = true ↔ v.toInt ≠ 0 := by
  simp [isTrue, ← BitVec.toInt_inj]

/-- `pc` after an instruction that ends inside memory is exact (rules R12, R81). -/
theorem toInt_pc_add {s : State} {k : Nat} (hs : s.memSize ≤ Config.maxMemSize) (hk : k ≤ 3)
    (h : s.InRange (s.pc.toInt + k)) : (s.pc + BitVec.ofNat 64 (k + 1)).toInt = s.pc.toInt + (k + 1 : Nat) := by
  obtain ⟨h1, h2⟩ := h
  simp only [Config.maxMemSize] at hs
  have hn : (BitVec.ofNat 64 (k + 1)).toInt = (k + 1 : Nat) := by interval_cases k <;> rfl
  rw [BitVec.toInt_add, hn, Int.bmod_def]
  omega

theorem toInt_pc_advance {s : State} {n : Nat} (hs : s.memSize ≤ Config.maxMemSize) (hn : 1 ≤ n ∧ n ≤ 4)
    (h : s.InRange (s.pc.toInt + (n - 1 : Nat))) : (s.advance n).pc.toInt = s.pc.toInt + n := by
  obtain ⟨k, rfl⟩ : ∃ k, n = k + 1 := ⟨n - 1, by omega⟩
  exact toInt_pc_add hs (by omega) h

/-- A store to a checked cell and the move of `pc`, as the frame of Safety.lean. -/
theorem storesAndAdvances_of_write {s : State} {a x : Int} {v : Word} {n : Nat} (hw : Memory.wf s.mem)
    (hs : s.memSize ≤ Config.maxMemSize) (hn : 1 ≤ n ∧ n ≤ 4) (h : s.InRange (s.pc.toInt + (n - 1 : Nat)))
    (hv : v.toInt = x) : StoresAndAdvances s ((s.writeCell a.toNat v).advance n) a x n := by
  refine ⟨rfl, toInt_pc_advance (s := s) hs hn h, ?_, fun b hb => ?_⟩
  · simp [Memory.read_write_same hw, hv]
  · simp [Memory.read_write_other _ _ hb]

/-! ## What the resolver looks at: memory, its size, `pc` and `rb` -/

/-- The two states agree on all that fetch, decode and operand resolution look at. -/
structure SameProgram (s t : State) : Prop where
  mem : t.mem = s.mem
  memSize : t.memSize = s.memSize
  pc : t.pc = s.pc
  rb : t.rb = s.rb

theorem SameProgram.operandWord {s t : State} (h : SameProgram s t) (k : Nat) :
    Machine.operandWord t k = Machine.operandWord s k := by
  simp only [Machine.operandWord, State.readCell, State.cellIndex, State.InRange, h.mem, h.memSize, h.pc]

theorem SameProgram.readOperand {s t : State} (h : SameProgram s t) (k : Nat) (m : Mode) (r : Word) :
    Machine.readOperand t k m r = Machine.readOperand s k m r := by
  simp only [Machine.readOperand, effectiveAddress, State.readCell, State.cellIndex, State.InRange, h.mem, h.memSize,
    h.rb]

theorem SameProgram.writeTarget {s t : State} (h : SameProgram s t) (k : Nat) (m : Mode) (r : Word) :
    Machine.writeTarget t k m r = Machine.writeTarget s k m r := by
  simp only [Machine.writeTarget, effectiveAddress, State.cellIndex, State.InRange, h.memSize, h.rb]

theorem SameProgram.resolveSource {s t : State} (h : SameProgram s t) (m1 : Mode) :
    Machine.resolveSource t m1 = Machine.resolveSource s m1 := by
  simp only [Machine.resolveSource, h.operandWord, h.readOperand]

theorem SameProgram.resolveDestination {s t : State} (h : SameProgram s t) (m1 : Mode) :
    Machine.resolveDestination t m1 = Machine.resolveDestination s m1 := by
  simp only [Machine.resolveDestination, h.operandWord, h.writeTarget]

theorem SameProgram.resolveTwo {s t : State} (h : SameProgram s t) (m1 m2 : Mode) :
    Machine.resolveTwo t m1 m2 = Machine.resolveTwo s m1 m2 := by
  simp only [Machine.resolveTwo, h.operandWord, h.readOperand]

theorem SameProgram.resolveThree {s t : State} (h : SameProgram s t) (m1 m2 m3 : Mode) :
    Machine.resolveThree t m1 m2 m3 = Machine.resolveThree s m1 m2 m3 := by
  simp only [Machine.resolveThree, h.operandWord, h.readOperand, h.writeTarget]

theorem SameProgram.fetchDecode {s t : State} (h : SameProgram s t) : Machine.fetchDecode t = Machine.fetchDecode s := by
  simp only [Machine.fetchDecode, State.readCell, State.cellIndex, State.InRange, h.mem, h.memSize, h.pc]

end Sys2Proof.Machine
end

