-- ==== Sys2Proof/Laws/Exec.lean ====
section
/-! SUPPORT. What each instruction can do, said once: the fault it raises, or its effect when it raises none. -/
namespace Sys2Proof.Machine

@[simp] theorem conclude_ok (s t : State) : conclude s (.ok t) = .next t := rfl

@[simp] theorem conclude_error (s : State) (f : FaultRecord) : conclude s (.error f) = .next (s.takeFault f) := rfl

/-- The error of a check, if it is one. -/
def errorOf {α : Type} : Except FaultRecord α → Option FaultRecord
  | .ok _ => none
  | .error f => some f

@[simp] theorem errorOf_eq_some_iff {α : Type} {x : Except FaultRecord α} {f : FaultRecord} :
    errorOf x = some f ↔ x = .error f := by cases x <;> simp [errorOf]

theorem errorOf_eq_none_iff {α : Type} {x : Except FaultRecord α} : errorOf x = none ↔ ∃ a, x = .ok a := by
  cases x <;> simp [errorOf]

/-! ## The shared shapes -/

/-- The fault of a format F3 instruction whose result is `f` of its two values. -/
def storeFault (s : State) (m1 m2 m3 : Mode) (f : Word → Word → Except FaultRecord Word) : Option FaultRecord :=
  match resolveThree s m1 m2 m3 with
  | .error e => some e
  | .ok (v1, v2, _) => errorOf (f v1 v2)

theorem storeResult_of_fault {s : State} {m1 m2 m3 : Mode} {f : Word → Word → Except FaultRecord Word} {e : FaultRecord}
    (h : storeFault s m1 m2 m3 f = some e) : storeResult s m1 m2 m3 f = .next (s.takeFault e) := by
  unfold storeFault at h
  unfold storeResult
  cases hr : resolveThree s m1 m2 m3 with
  | error e' => simp_all
  | ok p =>
    obtain ⟨v1, v2, t⟩ := p
    simp_all

/-- A format F3 instruction that raises no fault stores its result in the destination cell and advances `pc` by 4. -/
theorem storeResult_of_no_fault {s : State} {m1 m2 m3 : Mode} {f : Word → Word → Except FaultRecord Word}
    (h : storeFault s m1 m2 m3 f = none) :
    SourceReadable s 1 m1 ∧ SourceReadable s 2 m2 ∧ ∃ a v, DestinationAt s 3 m3 a ∧
      f (sourceValue s 1 m1) (sourceValue s 2 m2) = .ok v ∧
      storeResult s m1 m2 m3 f = .next ((s.writeCell a.toNat v).advance 4) := by
  unfold storeFault at h
  unfold storeResult
  cases hr : resolveThree s m1 m2 m3 with
  | error e' => simp_all
  | ok p =>
    obtain ⟨v1, v2, t⟩ := p
    obtain ⟨h1, h2, ⟨a, ha, rfl⟩, rfl, rfl⟩ := resolveThree_eq_ok_iff.mp hr
    rw [hr] at h
    obtain ⟨v, hv⟩ := errorOf_eq_none_iff.mp h
    exact ⟨h1, h2, a, v, ha, hv, by simp [hv]⟩

/-- The forward direction: what a format F3 instruction does when its operands are in order and its result exists. -/
theorem storeResult_eq_next {s : State} {m1 m2 m3 : Mode} {f : Word → Word → Except FaultRecord Word} {a : Int} {v : Word}
    (h1 : SourceReadable s 1 m1) (h2 : SourceReadable s 2 m2) (h3 : DestinationAt s 3 m3 a)
    (hv : f (sourceValue s 1 m1) (sourceValue s 2 m2) = .ok v) :
    storeResult s m1 m2 m3 f = .next ((s.writeCell a.toNat v).advance 4) := by
  have hr := resolveThree_eq_ok_iff.mpr ⟨h1, h2, ⟨a, h3, rfl⟩, rfl, rfl⟩
  simp [storeResult, hr, hv]

/-- The forward direction of the jumps. -/
theorem jumpWhen_eq_next {s : State} {m1 m2 : Mode} {p : Word → Bool} (h1 : SourceReadable s 1 m1)
    (h2 : SourceReadable s 2 m2) :
    jumpWhen s m1 m2 p =
      .next (if p (sourceValue s 1 m1) then s.jump (sourceValue s 2 m2) else s.advance 3) := by
  have hr := resolveTwo_eq_ok_iff.mpr ⟨h1, h2, rfl, rfl⟩
  simp [jumpWhen, hr]

/-! ## Every instruction -/

/-- The fault instruction `i` raises in phases 3 to 5, if it raises one (rules R75 to R79). -/
def faultOf (i : Instr) (s : State) : Option FaultRecord :=
  match i with
  | .add a b dst => storeFault s a b dst fun v1 v2 => narrow (v1.toInt + v2.toInt)
  | .multiply a b dst => storeFault s a b dst fun v1 v2 => narrow (v1.toInt * v2.toInt)
  | .saveInput dst => errorOf (resolveDestination s dst)
  | .output src => errorOf (resolveSource s src)
  | .jumpIfTrue cond target => errorOf (resolveTwo s cond target)
  | .jumpIfFalse cond target => errorOf (resolveTwo s cond target)
  | .lessThan a b dst => storeFault s a b dst fun v1 v2 => .ok (truthValue (decide (v1.toInt < v2.toInt)))
  | .equals a b dst => storeFault s a b dst fun v1 v2 => .ok (truthValue (decide (v1 = v2)))
  | .adjustRelative a => errorOf (do
      let v ← resolveSource s a
      narrow (s.rb.toInt + v.toInt))
  | .halt => none
  | .unknownOperation _ => none

/-- The effect of a format F3 instruction whose result is the integer `x` of its two values. -/
def StoreEffect (s t : State) (m1 m2 m3 : Mode) (x : Word → Word → Int) : Prop :=
  SourceReadable s 1 m1 ∧ SourceReadable s 2 m2 ∧ ∃ a v, DestinationAt s 3 m3 a ∧
    v.toInt = x (sourceValue s 1 m1) (sourceValue s 2 m2) ∧ t = (s.writeCell a.toNat v).advance 4

/-- The effect of a jump whose condition is `p`. -/
def JumpEffect (s t : State) (m1 m2 : Mode) (p : Word → Bool) : Prop :=
  SourceReadable s 1 m1 ∧ SourceReadable s 2 m2 ∧
    t = if p (sourceValue s 1 m1) then s.jump (sourceValue s 2 m2) else s.advance 3

/-- The effect of instruction `i` when it raises no fault. -/
def Effect (i : Instr) (s t : State) : Prop :=
  match i with
  | .add a b dst => StoreEffect s t a b dst fun v1 v2 => v1.toInt + v2.toInt
  | .multiply a b dst => StoreEffect s t a b dst fun v1 v2 => v1.toInt * v2.toInt
  | .saveInput dst => ∃ a, DestinationAt s 1 dst a ∧ t = (s.consumeInput.writeCell a.toNat s.inputValue).advance 2
  | .output src => SourceReadable s 1 src ∧ t = (s.advance 2).suspend (sourceValue s 1 src)
  | .jumpIfTrue cond target => JumpEffect s t cond target isTrue
  | .jumpIfFalse cond target => JumpEffect s t cond target fun v => !isTrue v
  | .lessThan a b dst => StoreEffect s t a b dst fun v1 v2 => if v1.toInt < v2.toInt then 1 else 0
  | .equals a b dst => StoreEffect s t a b dst fun v1 v2 => if v1 = v2 then 1 else 0
  | .adjustRelative a => SourceReadable s 1 a ∧ ∃ b : Word,
      b.toInt = s.rb.toInt + (sourceValue s 1 a).toInt ∧ t = (s.setRb b).advance 2
  | .halt => t = s.stop
  | .unknownOperation _ => t = s.stop

/-- An instruction that raises a fault takes it. -/
theorem exec_of_fault {i : Instr} {s : State} {f : FaultRecord} (h : faultOf i s = some f) :
    exec i s = .next (s.takeFault f) := by
  cases i with
  | add a b dst => exact storeResult_of_fault h
  | multiply a b dst => exact storeResult_of_fault h
  | saveInput dst => simp [exec, execSaveInput, errorOf_eq_some_iff.mp h]
  | output src => simp [exec, execOutput, errorOf_eq_some_iff.mp h]
  | jumpIfTrue cond target => simp [exec, execJumpIfTrue, jumpWhen, errorOf_eq_some_iff.mp h]
  | jumpIfFalse cond target => simp [exec, execJumpIfFalse, jumpWhen, errorOf_eq_some_iff.mp h]
  | lessThan a b dst => exact storeResult_of_fault h
  | equals a b dst => exact storeResult_of_fault h
  | adjustRelative a =>
    rcases bind_eq_error_iff.mp (errorOf_eq_some_iff.mp h) with h | ⟨v, hv, h⟩
    · simp [exec, execAdjustRelative, h]
    · simp [exec, execAdjustRelative, hv, h]
  | halt => cases h
  | unknownOperation opc => cases h

theorem storeEffect_of_no_fault {s : State} {m1 m2 m3 : Mode} {f : Word → Word → Except FaultRecord Word}
    {x : Word → Word → Int} (hx : ∀ u w v, f u w = .ok v → v.toInt = x u w) (h : storeFault s m1 m2 m3 f = none) :
    ∃ t, storeResult s m1 m2 m3 f = .next t ∧ StoreEffect s t m1 m2 m3 x := by
  obtain ⟨h1, h2, a, v, ha, hv, heq⟩ := storeResult_of_no_fault h
  exact ⟨_, heq, h1, h2, a, v, ha, hx _ _ _ hv, rfl⟩

/-- An instruction that raises no fault has its effect. -/
theorem exec_of_no_fault {i : Instr} {s : State} (h : faultOf i s = none) :
    ∃ t, exec i s = .next t ∧ Effect i s t := by
  cases i with
  | add a b dst =>
    refine storeEffect_of_no_fault (x := fun v1 v2 => v1.toInt + v2.toInt) (fun u w v hv => ?_) h
    obtain ⟨hf, rfl⟩ := narrow_eq_ok_iff.mp hv
    exact toInt_ofInt_of_fits hf
  | multiply a b dst =>
    refine storeEffect_of_no_fault (x := fun v1 v2 => v1.toInt * v2.toInt) (fun u w v hv => ?_) h
    obtain ⟨hf, rfl⟩ := narrow_eq_ok_iff.mp hv
    exact toInt_ofInt_of_fits hf
  | saveInput dst =>
    obtain ⟨t, ht⟩ := errorOf_eq_none_iff.mp h
    obtain ⟨a, ha, rfl⟩ := resolveDestination_eq_ok_iff.mp ht
    exact ⟨_, by simp only [exec, execSaveInput, ht, bind_ok, pure_eq_ok, conclude_ok], a, ha, rfl⟩
  | output src =>
    obtain ⟨v, hv⟩ := errorOf_eq_none_iff.mp h
    obtain ⟨hs, rfl⟩ := resolveSource_eq_ok_iff.mp hv
    exact ⟨_, by simp only [exec, execOutput, hv, bind_ok, pure_eq_ok, conclude_ok], hs, rfl⟩
  | jumpIfTrue cond target =>
    obtain ⟨⟨v1, v2⟩, hv⟩ := errorOf_eq_none_iff.mp h
    obtain ⟨h1, h2, -, -⟩ := resolveTwo_eq_ok_iff.mp hv
    exact ⟨_, jumpWhen_eq_next h1 h2, h1, h2, rfl⟩
  | jumpIfFalse cond target =>
    obtain ⟨⟨v1, v2⟩, hv⟩ := errorOf_eq_none_iff.mp h
    obtain ⟨h1, h2, -, -⟩ := resolveTwo_eq_ok_iff.mp hv
    exact ⟨_, jumpWhen_eq_next (p := fun v => !isTrue v) h1 h2, h1, h2, rfl⟩
  | lessThan a b dst =>
    refine storeEffect_of_no_fault (x := fun v1 v2 => if v1.toInt < v2.toInt then 1 else 0) (fun u w v hv => ?_) h
    cases hv
    simp [toInt_truthValue]
  | equals a b dst =>
    refine storeEffect_of_no_fault (x := fun v1 v2 => if v1 = v2 then 1 else 0) (fun u w v hv => ?_) h
    cases hv
    simp [toInt_truthValue]
  | adjustRelative a =>
    obtain ⟨b, hb⟩ := errorOf_eq_none_iff.mp h
    obtain ⟨v, hv, hb⟩ := bind_eq_ok_iff.mp hb
    obtain ⟨hs, rfl⟩ := resolveSource_eq_ok_iff.mp hv
    obtain ⟨hf, rfl⟩ := narrow_eq_ok_iff.mp hb
    exact ⟨_, by simp only [exec, execAdjustRelative, hv, hb, bind_ok, pure_eq_ok, conclude_ok], hs, _,
      toInt_ofInt_of_fits hf, rfl⟩
  | halt => exact ⟨_, rfl, rfl⟩
  | unknownOperation opc => exact ⟨_, rfl, rfl⟩

/-- The inversion of `exec`: a next state is the fault taken, or the instruction's effect. -/
theorem exec_cases {i : Instr} {s t : State} (h : exec i s = .next t) :
    (∃ f, faultOf i s = some f ∧ t = s.takeFault f) ∨ (faultOf i s = none ∧ Effect i s t) := by
  cases hf : faultOf i s with
  | some f =>
    rw [exec_of_fault hf] at h
    cases h
    exact Or.inl ⟨f, rfl, rfl⟩
  | none =>
    obtain ⟨u, hu, he⟩ := exec_of_no_fault hf
    rw [hu] at h
    cases h
    exact Or.inr ⟨rfl, he⟩

theorem storeFault_legal {s : State} {m1 m2 m3 : Mode} {f : Word → Word → Except FaultRecord Word} {e : FaultRecord}
    (hf : ∀ u w e', f u w = .error e' → e'.Legal s.memSize) (h : storeFault s m1 m2 m3 f = some e) :
    e.Legal s.memSize := by
  unfold storeFault at h
  cases hr : resolveThree s m1 m2 m3 with
  | error e' =>
    rw [hr] at h
    cases h
    exact resolveThree_error_legal hr
  | ok p =>
    rw [hr] at h
    exact hf _ _ _ (errorOf_eq_some_iff.mp h)

/-- Every fault of an instruction is one of rule R120's table. -/
theorem faultOf_legal {i : Instr} {s : State} {f : FaultRecord} (h : faultOf i s = some f) : f.Legal s.memSize := by
  cases i with
  | add a b dst => exact storeFault_legal (fun _ _ _ => narrow_error_legal _) h
  | multiply a b dst => exact storeFault_legal (fun _ _ _ => narrow_error_legal _) h
  | saveInput dst => exact resolveDestination_error_legal (errorOf_eq_some_iff.mp h)
  | output src => exact resolveSource_error_legal (errorOf_eq_some_iff.mp h)
  | jumpIfTrue cond target => exact resolveTwo_error_legal (errorOf_eq_some_iff.mp h)
  | jumpIfFalse cond target => exact resolveTwo_error_legal (errorOf_eq_some_iff.mp h)
  | lessThan a b dst => exact storeFault_legal (fun _ _ _ he => by cases he) h
  | equals a b dst => exact storeFault_legal (fun _ _ _ he => by cases he) h
  | adjustRelative a =>
    rcases bind_eq_error_iff.mp (errorOf_eq_some_iff.mp h) with h | ⟨v, -, h⟩
    exacts [resolveSource_error_legal h, narrow_error_legal _ h]
  | halt => cases h
  | unknownOperation opc => cases h

/-- The fault depends on memory, its size, `pc` and `rb` alone. -/
theorem SameProgram.faultOf {s t : State} (h : SameProgram s t) (i : Instr) : Machine.faultOf i t = Machine.faultOf i s := by
  cases i <;> simp only [Machine.faultOf, storeFault, h.resolveThree, h.resolveTwo, h.resolveSource,
    h.resolveDestination, h.rb]

/-! ## Forward: the next state of each instruction whose operands are in order -/

theorem exec_add {s : State} {m1 m2 m3 : Mode} {a : Int} (h1 : SourceReadable s 1 m1) (h2 : SourceReadable s 2 m2)
    (h3 : DestinationAt s 3 m3 a) (hf : FitsInt64 ((sourceValue s 1 m1).toInt + (sourceValue s 2 m2).toInt)) :
    exec (.add m1 m2 m3) s = .next ((s.writeCell a.toNat
      (BitVec.ofInt 64 ((sourceValue s 1 m1).toInt + (sourceValue s 2 m2).toInt))).advance 4) :=
  storeResult_eq_next (f := fun v1 v2 => narrow (v1.toInt + v2.toInt)) h1 h2 h3 (narrow_eq_ok_iff.mpr ⟨hf, rfl⟩)

theorem exec_multiply {s : State} {m1 m2 m3 : Mode} {a : Int} (h1 : SourceReadable s 1 m1) (h2 : SourceReadable s 2 m2)
    (h3 : DestinationAt s 3 m3 a) (hf : FitsInt64 ((sourceValue s 1 m1).toInt * (sourceValue s 2 m2).toInt)) :
    exec (.multiply m1 m2 m3) s = .next ((s.writeCell a.toNat
      (BitVec.ofInt 64 ((sourceValue s 1 m1).toInt * (sourceValue s 2 m2).toInt))).advance 4) :=
  storeResult_eq_next (f := fun v1 v2 => narrow (v1.toInt * v2.toInt)) h1 h2 h3 (narrow_eq_ok_iff.mpr ⟨hf, rfl⟩)

theorem exec_lessThan {s : State} {m1 m2 m3 : Mode} {a : Int} (h1 : SourceReadable s 1 m1) (h2 : SourceReadable s 2 m2)
    (h3 : DestinationAt s 3 m3 a) :
    exec (.lessThan m1 m2 m3) s = .next ((s.writeCell a.toNat
      (truthValue (decide ((sourceValue s 1 m1).toInt < (sourceValue s 2 m2).toInt)))).advance 4) :=
  storeResult_eq_next (f := fun v1 v2 => .ok (truthValue (decide (v1.toInt < v2.toInt)))) h1 h2 h3 rfl

theorem exec_equals {s : State} {m1 m2 m3 : Mode} {a : Int} (h1 : SourceReadable s 1 m1) (h2 : SourceReadable s 2 m2)
    (h3 : DestinationAt s 3 m3 a) :
    exec (.equals m1 m2 m3) s = .next ((s.writeCell a.toNat
      (truthValue (decide (sourceValue s 1 m1 = sourceValue s 2 m2)))).advance 4) :=
  storeResult_eq_next (f := fun v1 v2 => .ok (truthValue (decide (v1 = v2)))) h1 h2 h3 rfl

theorem exec_saveInput {s : State} {m1 : Mode} {a : Int} (h : DestinationAt s 1 m1 a) :
    exec (.saveInput m1) s = .next ((s.consumeInput.writeCell a.toNat s.inputValue).advance 2) := by
  have hr := resolveDestination_eq_ok_iff.mpr ⟨a, h, rfl⟩
  simp only [exec, execSaveInput, hr, bind_ok, pure_eq_ok, conclude_ok]

theorem exec_output {s : State} {m1 : Mode} (h : SourceReadable s 1 m1) :
    exec (.output m1) s = .next ((s.advance 2).suspend (sourceValue s 1 m1)) := by
  have hr := resolveSource_eq_ok_iff.mpr ⟨h, rfl⟩
  simp only [exec, execOutput, hr, bind_ok, pure_eq_ok, conclude_ok]

theorem exec_jumpIfTrue {s : State} {m1 m2 : Mode} (h1 : SourceReadable s 1 m1) (h2 : SourceReadable s 2 m2) :
    exec (.jumpIfTrue m1 m2) s =
      .next (if (sourceValue s 1 m1).toInt = 0 then s.advance 3 else s.jump (sourceValue s 2 m2)) := by
  refine (jumpWhen_eq_next (p := fun v => isTrue v) h1 h2).trans ?_
  by_cases h : (sourceValue s 1 m1).toInt = 0
  · rw [if_pos h, if_neg fun ht => isTrue_iff.mp ht h]
  · rw [if_neg h, if_pos (isTrue_iff.mpr h)]

theorem exec_jumpIfFalse {s : State} {m1 m2 : Mode} (h1 : SourceReadable s 1 m1) (h2 : SourceReadable s 2 m2) :
    exec (.jumpIfFalse m1 m2) s =
      .next (if (sourceValue s 1 m1).toInt = 0 then s.jump (sourceValue s 2 m2) else s.advance 3) := by
  refine (jumpWhen_eq_next (p := fun v => !isTrue v) h1 h2).trans ?_
  by_cases h : (sourceValue s 1 m1).toInt = 0
  · rw [if_pos h, if_pos (by simpa using mt isTrue_iff.mp (not_not_intro h))]
  · rw [if_neg h, if_neg (by simpa using isTrue_iff.mpr h)]

theorem exec_adjustRelative {s : State} {m1 : Mode} (h : SourceReadable s 1 m1)
    (hf : FitsInt64 (s.rb.toInt + (sourceValue s 1 m1).toInt)) :
    exec (.adjustRelative m1) s =
      .next ((s.setRb (BitVec.ofInt 64 (s.rb.toInt + (sourceValue s 1 m1).toInt))).advance 2) := by
  have hr := resolveSource_eq_ok_iff.mpr ⟨h, rfl⟩
  have hn := narrow_eq_ok_iff.mpr ⟨hf, rfl⟩
  simp only [exec, execAdjustRelative, hr, hn, bind_ok, pure_eq_ok, conclude_ok]

/-! ## The effect of an instruction, by what it touches -/

/-- An effect keeps the call going, or is the suspension of an Output, or is a stop. -/
theorem effect_cases {i : Instr} {s t : State} (h : Effect i s t) :
    (actsAsHalt i = false ∧ (∀ m, i ≠ .output m) ∧
      t = { s with mem := t.mem, pc := t.pc, rb := t.rb, xv := t.xv }) ∨
    (∃ m, i = .output m ∧ t = (s.advance 2).suspend (sourceValue s 1 m)) ∨
    (actsAsHalt i = true ∧ t = s.stop) := by
  cases i with
  | add a b dst =>
    obtain ⟨-, -, a, v, -, -, rfl⟩ := h
    exact Or.inl ⟨rfl, by simp, rfl⟩
  | multiply a b dst =>
    obtain ⟨-, -, a, v, -, -, rfl⟩ := h
    exact Or.inl ⟨rfl, by simp, rfl⟩
  | saveInput dst =>
    obtain ⟨a, -, rfl⟩ := h
    exact Or.inl ⟨rfl, by simp, rfl⟩
  | output src => exact Or.inr (Or.inl ⟨src, rfl, h.2⟩)
  | jumpIfTrue cond target =>
    obtain ⟨-, -, rfl⟩ := h
    exact Or.inl ⟨rfl, by simp, by split <;> rfl⟩
  | jumpIfFalse cond target =>
    obtain ⟨-, -, rfl⟩ := h
    exact Or.inl ⟨rfl, by simp, by split <;> rfl⟩
  | lessThan a b dst =>
    obtain ⟨-, -, a, v, -, -, rfl⟩ := h
    exact Or.inl ⟨rfl, by simp, rfl⟩
  | equals a b dst =>
    obtain ⟨-, -, a, v, -, -, rfl⟩ := h
    exact Or.inl ⟨rfl, by simp, rfl⟩
  | adjustRelative a =>
    obtain ⟨-, b, -, rfl⟩ := h
    exact Or.inl ⟨rfl, by simp, rfl⟩
  | halt => exact Or.inr (Or.inr ⟨rfl, h⟩)
  | unknownOperation opc => exact Or.inr (Or.inr ⟨rfl, h⟩)

/-- An effect leaves memory alone or writes the one cell its destination operand names. -/
theorem effect_mem {i : Instr} {s t : State} (h : Effect i s t) :
    t.mem = s.mem ∨ ∃ k m a v, i.destination = some k ∧ i.modes[k - 1]? = some m ∧ DestinationAt s k m a ∧
      t.mem = s.mem.write a.toNat v := by
  cases i with
  | add a b dst =>
    obtain ⟨-, -, a, v, ha, -, rfl⟩ := h
    exact Or.inr ⟨3, dst, a, v, rfl, rfl, ha, rfl⟩
  | multiply a b dst =>
    obtain ⟨-, -, a, v, ha, -, rfl⟩ := h
    exact Or.inr ⟨3, dst, a, v, rfl, rfl, ha, rfl⟩
  | saveInput dst =>
    obtain ⟨a, ha, rfl⟩ := h
    exact Or.inr ⟨1, dst, a, _, rfl, rfl, ha, rfl⟩
  | output src => exact Or.inl (h.2 ▸ rfl)
  | jumpIfTrue cond target =>
    obtain ⟨-, -, rfl⟩ := h
    exact Or.inl (by split <;> rfl)
  | jumpIfFalse cond target =>
    obtain ⟨-, -, rfl⟩ := h
    exact Or.inl (by split <;> rfl)
  | lessThan a b dst =>
    obtain ⟨-, -, a, v, ha, -, rfl⟩ := h
    exact Or.inr ⟨3, dst, a, v, rfl, rfl, ha, rfl⟩
  | equals a b dst =>
    obtain ⟨-, -, a, v, ha, -, rfl⟩ := h
    exact Or.inr ⟨3, dst, a, v, rfl, rfl, ha, rfl⟩
  | adjustRelative a =>
    obtain ⟨-, b, -, rfl⟩ := h
    exact Or.inl rfl
  | halt => exact Or.inl (h ▸ rfl)
  | unknownOperation opc => exact Or.inl (h ▸ rfl)

/-- An effect leaves `rb` alone unless it is AdjustRelative's. -/
theorem effect_rb {i : Instr} {s t : State} (h : Effect i s t) : t.rb = s.rb ∨ ∃ m, i = .adjustRelative m := by
  cases i with
  | adjustRelative a => exact Or.inr ⟨a, rfl⟩
  | add a b dst => obtain ⟨-, -, a, v, -, -, rfl⟩ := h; exact Or.inl rfl
  | multiply a b dst => obtain ⟨-, -, a, v, -, -, rfl⟩ := h; exact Or.inl rfl
  | saveInput dst => obtain ⟨a, -, rfl⟩ := h; exact Or.inl rfl
  | output src => exact Or.inl (h.2 ▸ rfl)
  | jumpIfTrue cond target => obtain ⟨-, -, rfl⟩ := h; exact Or.inl (by split <;> rfl)
  | jumpIfFalse cond target => obtain ⟨-, -, rfl⟩ := h; exact Or.inl (by split <;> rfl)
  | lessThan a b dst => obtain ⟨-, -, a, v, -, -, rfl⟩ := h; exact Or.inl rfl
  | equals a b dst => obtain ⟨-, -, a, v, -, -, rfl⟩ := h; exact Or.inl rfl
  | halt => exact Or.inl (h ▸ rfl)
  | unknownOperation opc => exact Or.inl (h ▸ rfl)

/-! ## The five storing instructions as one -/

theorem truthValue_eq_ofInt (p : Prop) [Decidable p] : truthValue (decide p) = BitVec.ofInt 64 (if p then 1 else 0) := by
  by_cases h : p <;> simp [truthValue, h]

/-- A storing instruction whose operands are in order and whose value fits completes: it writes the value to the cell its
destination names, moves past its own words, and changes nothing else but `xv`. -/
theorem exec_of_stores {i : Instr} {s : State} {k : Nat} {m : Mode} {a v : Int} (hk : i.destination = some k)
    (hm : i.modes[k - 1]? = some m)
    (hsrc : ∀ (n : Nat) (m' : Mode), 1 ≤ n → n < k → i.modes[n - 1]? = some m' → SourceReadable s n m')
    (hd : DestinationAt s k m a) (hv : storedValue s i = some v) (hf : FitsInt64 v) :
    k = i.arity ∧ ∃ xv, exec i s =
      .next (({ s with xv := xv }.writeCell a.toNat (BitVec.ofInt 64 v)).advance (i.arity + 1)) := by
  cases i with
  | add m1 m2 m3 =>
    cases hk; cases hm; cases hv
    exact ⟨rfl, s.xv, exec_add (hsrc 1 m1 (by decide) (by decide) rfl) (hsrc 2 m2 (by decide) (by decide) rfl) hd hf⟩
  | multiply m1 m2 m3 =>
    cases hk; cases hm; cases hv
    exact ⟨rfl, s.xv,
      exec_multiply (hsrc 1 m1 (by decide) (by decide) rfl) (hsrc 2 m2 (by decide) (by decide) rfl) hd hf⟩
  | saveInput m1 =>
    cases hk; cases hm; cases hv
    refine ⟨rfl, false, (exec_saveInput hd).trans ?_⟩
    have : BitVec.ofInt 64 (if s.xv = true then s.xin.toInt else s.sig.toInt) = s.inputValue := by
      unfold State.inputValue
      split <;> exact BitVec.ofInt_toInt
    rw [this]
    rfl
  | lessThan m1 m2 m3 =>
    cases hk; cases hm; cases hv
    refine ⟨rfl, s.xv,
      (exec_lessThan (hsrc 1 m1 (by decide) (by decide) rfl) (hsrc 2 m2 (by decide) (by decide) rfl) hd).trans ?_⟩
    rw [truthValue_eq_ofInt]
    rfl
  | equals m1 m2 m3 =>
    cases hk; cases hm; cases hv
    refine ⟨rfl, s.xv,
      (exec_equals (hsrc 1 m1 (by decide) (by decide) rfl) (hsrc 2 m2 (by decide) (by decide) rfl) hd).trans ?_⟩
    simp only [← BitVec.toInt_inj, truthValue_eq_ofInt]
    rfl
  | output _ => cases hk
  | jumpIfTrue _ _ => cases hk
  | jumpIfFalse _ _ => cases hk
  | adjustRelative _ => cases hk
  | halt => cases hk
  | unknownOperation _ => cases hk

end Sys2Proof.Machine
end

