-- ==== Sys2Proof/Laws/PerInstr.lean ====
section
/-! SUPPORT. The family Canonical: what the encoder's number is, one lemma per constructor of Instr. -/
namespace Sys2Proof

theorem modeDigits_cons_le {m : Mode} {ms : List Mode} {n : Nat} (h : modeDigits ms ≤ n) :
    modeDigits (m :: ms) ≤ 2 + 10 * n := by
  have := mode_digit_le_two m
  simp only [modeDigits]
  omega

end Sys2Proof

namespace Sys2Proof.Laws.Canonical

/-- The encoder of a well-formed instruction loses nothing to the word's width, gives a non-negative word (rule R60
would refuse a negative one), and leaves the opcode in the two low digits (rule R51). -/
def Statement (i : Instr) : Prop :=
  i.wellFormed = true → (encode i).toNat = i.canonical ∧ 0 ≤ (encode i).toInt ∧ opcodeOf i.canonical = i.opcode

theorem of_bounds {i : Instr} (ho : i.opcode ≤ 99) (hm : modeDigits i.modes ≤ 222) :
    (encode i).toNat = i.canonical ∧ 0 ≤ (encode i).toInt ∧ opcodeOf i.canonical = i.opcode := by
  have hc : i.canonical ≤ 99 + 100 * 222 := by
    unfold Instr.canonical
    omega
  have hn : (encode i).toNat = i.canonical := by
    rw [encode, BitVec.toNat_ofNat]
    omega
  refine ⟨hn, ?_, ?_⟩
  · rw [BitVec.toInt_eq_toNat_of_lt (by omega)]
    exact Int.natCast_nonneg _
  · unfold opcodeOf Instr.canonical
    omega

theorem none_le : modeDigits [] ≤ 0 := Nat.le_refl 0

theorem add (a b dst : Mode) : Statement (.add a b dst) := fun _ =>
  of_bounds (by simp [Instr.opcode]) (modeDigits_cons_le (modeDigits_cons_le (modeDigits_cons_le none_le)))

theorem multiply (a b dst : Mode) : Statement (.multiply a b dst) := fun _ =>
  of_bounds (by simp [Instr.opcode]) (modeDigits_cons_le (modeDigits_cons_le (modeDigits_cons_le none_le)))

theorem saveInput (dst : Mode) : Statement (.saveInput dst) := fun _ =>
  of_bounds (by simp [Instr.opcode]) ((modeDigits_cons_le none_le).trans (by decide))

theorem output (src : Mode) : Statement (.output src) := fun _ =>
  of_bounds (by simp [Instr.opcode]) ((modeDigits_cons_le none_le).trans (by decide))

theorem jumpIfTrue (cond target : Mode) : Statement (.jumpIfTrue cond target) := fun _ =>
  of_bounds (by simp [Instr.opcode]) ((modeDigits_cons_le (modeDigits_cons_le none_le)).trans (by decide))

theorem jumpIfFalse (cond target : Mode) : Statement (.jumpIfFalse cond target) := fun _ =>
  of_bounds (by simp [Instr.opcode]) ((modeDigits_cons_le (modeDigits_cons_le none_le)).trans (by decide))

theorem lessThan (a b dst : Mode) : Statement (.lessThan a b dst) := fun _ =>
  of_bounds (by simp [Instr.opcode]) (modeDigits_cons_le (modeDigits_cons_le (modeDigits_cons_le none_le)))

theorem equals (a b dst : Mode) : Statement (.equals a b dst) := fun _ =>
  of_bounds (by simp [Instr.opcode]) (modeDigits_cons_le (modeDigits_cons_le (modeDigits_cons_le none_le)))

theorem adjustRelative (a : Mode) : Statement (.adjustRelative a) := fun _ =>
  of_bounds (by simp [Instr.opcode]) ((modeDigits_cons_le none_le).trans (by decide))

theorem halt : Statement .halt := fun _ => of_bounds (by simp [Instr.opcode]) (none_le.trans (by decide))

theorem unknownOperation (opc : Nat) : Statement (.unknownOperation opc) := fun h =>
  of_bounds (by simp [Instr.wellFormed, unknownOpcode, Instr.opcode] at h ⊢; omega) (none_le.trans (by decide))

end Sys2Proof.Laws.Canonical
end

