-- ==== Sys2Proof/Laws/Ports.lean ====
section
/-! SUPPORT. What the ports can do, said once. -/
namespace Sys2Proof.Machine

theorem transacting_eq_false_iff {s : State} : s.transacting = false ↔ s.inCall = false ∧ s.requests = [] := by
  simp [State.transacting]

theorem transacting_of_inCall {s : State} (h : s.inCall = true) : s.transacting = true := by
  simp [State.transacting, h]

/-- The ports are ignored during a transaction. -/
theorem sampled_of_transacting {s t : State} {p : RequestPorts} (h : s.transacting = true) :
    s.Sampled p t ↔ t = s := by simp [State.Sampled, h]

/-- A machine held by the ports is in a call with no request waiting, or between calls with one at most. -/
theorem portDriven_iff {s : State} :
    s.PortDriven ↔ (s.inCall = true ∧ s.requests = []) ∨ (s.inCall = false ∧ s.requests.length ≤ 1) := by
  unfold State.PortDriven
  cases s.inCall <;> simp [List.length_eq_zero_iff]

theorem drivenBy_of_transacting {s : State} (h : s.transacting = true) (p : ResultPorts) :
    p.DrivenBy s ↔ p.stepDone = false := by simp [ResultPorts.DrivenBy, h]

theorem drivenBy_of_running {s : State} (h : s.fsm = .running) (p : ResultPorts) :
    p.DrivenBy s ↔ p.stepDone = false := by simp [ResultPorts.DrivenBy, h]

/-- The ports of a machine whose last call has ended with `r`. -/
theorem drivenBy_of_ended {s : State} {rs : List CallResult} {r : CallResult} (hc : s.inCall = false)
    (hq : s.requests = []) (hr : s.fsm ≠ .running) (h : s.results = rs ++ [r]) (p : ResultPorts) :
    p.DrivenBy s ↔ p.Shows r := by
  simp [ResultPorts.DrivenBy, transacting_eq_false_iff.mpr ⟨hc, hq⟩, hr, h]

end Sys2Proof.Machine
end

