-- ==== Sys2Proof/Laws/Step.lean ====
section
/-! SUPPORT. What one step can do, said once. -/
namespace Sys2Proof.Machine

/-! ## Fetch and decode -/

/-- The decoder's rejections are faults of rule R120's table. -/
theorem recordOfDecodeFault_legal {w : Word} {d : DecodeFault} (n : Nat) (h : decode w = .error d) :
    (recordOfDecodeFault d).Legal n := by
  rcases decode_error_cases h with ⟨hw, rfl⟩ | ⟨k, hk, h3, rfl⟩ | ⟨k, hk, rfl⟩
  · exact ⟨rfl, (fits_toInt w).1, hw⟩
  · exact ⟨hk, Int.ofNat_le.mpr h3, Int.ofNat_le.mpr (digit_le_nine _ _)⟩
  · exact ⟨hk, rfl⟩

theorem fetchDecode_eq_ok_iff {s : State} {i : Instr} :
    fetchDecode s = .ok i ↔ s.InRange s.pc.toInt ∧ decode (s.mem.read s.pc.toInt.toNat) = .ok i := by
  unfold fetchDecode
  by_cases h : s.InRange s.pc.toInt
  · rw [readCell_eq, if_pos h]
    cases hd : decode (s.mem.read s.pc.toInt.toNat) <;> simp [hd]
    exact fun _ => h
  · rw [readCell_eq, if_neg h]
    simp [h]

theorem fetchDecode_eq_error_iff {s : State} {f : FaultRecord} :
    fetchDecode s = .error f ↔
      (¬s.InRange s.pc.toInt ∧ f = ⟨.outOfRangeAccess, 0, s.pc.toInt⟩) ∨
      (s.InRange s.pc.toInt ∧ ∃ d, decode (s.mem.read s.pc.toInt.toNat) = .error d ∧ f = recordOfDecodeFault d) := by
  unfold fetchDecode
  by_cases h : s.InRange s.pc.toInt
  · rw [readCell_eq, if_pos h]
    cases hd : decode (s.mem.read s.pc.toInt.toNat) <;> simp [h, hd, eq_comm]
    exact fun _ => h
  · rw [readCell_eq, if_neg h]
    simp [h, eq_comm]

theorem fetchDecode_error_legal {s : State} {f : FaultRecord} (h : fetchDecode s = .error f) : f.Legal s.memSize := by
  rcases fetchDecode_eq_error_iff.mp h with ⟨ha, rfl⟩ | ⟨-, d, hd, rfl⟩
  exacts [⟨Nat.zero_le _, ha⟩, recordOfDecodeFault_legal _ hd]

/-! ## One instruction -/

/-- The fault of the instruction at `pc`, of any phase. -/
def instructionFault (s : State) : Option FaultRecord :=
  match fetchDecode s with
  | .error f => some f
  | .ok i => faultOf i s

theorem SameProgram.instructionFault {s t : State} (h : SameProgram s t) :
    Machine.instructionFault t = Machine.instructionFault s := by
  simp only [Machine.instructionFault, h.fetchDecode, h.faultOf]

theorem instructionFault_legal {s : State} {f : FaultRecord} (h : instructionFault s = some f) : f.Legal s.memSize := by
  unfold instructionFault at h
  split at h
  · cases h
    exact fetchDecode_error_legal ‹_›
  · exact faultOf_legal h

/-- The inversion of `execOne`: the fault of some phase taken, or the effect of the instruction at `pc`. -/
theorem execOne_cases (s : State) :
    (∃ f, instructionFault s = some f ∧ execOne s = .next (s.takeFault f)) ∨
    (instructionFault s = none ∧ ∃ i t, fetchDecode s = .ok i ∧ Effect i s t ∧ execOne s = .next t) := by
  unfold instructionFault execOne
  cases hd : fetchDecode s with
  | error f => exact Or.inl ⟨f, rfl, rfl⟩
  | ok i =>
    cases hf : faultOf i s with
    | some f => exact Or.inl ⟨f, hf, exec_of_fault hf⟩
    | none =>
      obtain ⟨t, ht, he⟩ := exec_of_no_fault hf
      exact Or.inr ⟨hf, i, t, rfl, he, ht⟩

/-! ## One step -/

/-- A step inside a call is one instruction. -/
theorem step_in_call {s : State} (hc : s.inCall = true) (hr : s.fsm = .running) : step s = execOne s := by
  simp [step, transition, hc, hr]

/-- A step between calls serves the caller. -/
theorem step_idle {s : State} (hc : s.inCall = false) : step s = serveCaller s := by
  simp [step, transition, hc]

/-- What serving the caller can do: wait, create a new machine, begin a call, or answer one on a stopped machine. -/
theorem serveCaller_cases {s t : State} (h : serveCaller s = .next t) :
    (s.requests = [] ∧ t = s) ∨
    (∃ image rest, s.requests = .create image :: rest ∧ image.length ≤ Config.maxMemSize ∧
      t = { State.create image with requests := rest, results := s.results }) ∨
    (∃ x y rest, s.requests = .step x y :: rest ∧ (s.fsm = .running ∨ s.fsm = .suspended) ∧
      t = State.latch { s with requests := rest } x y) ∨
    (∃ x y rest, s.requests = .step x y :: rest ∧ s.fsm = .halted ∧
      t = State.answer { s with requests := rest } .noValue) ∨
    (∃ x y rest f, s.requests = .step x y :: rest ∧ s.fsm = .faulted ∧ s.flt = some f ∧
      t = State.answer { s with requests := rest } (.fault f)) := by
  unfold serveCaller at h
  cases hq : s.requests with
  | nil =>
    rw [hq] at h
    cases h
    exact Or.inl ⟨rfl, rfl⟩
  | cons q rest =>
    rw [hq] at h
    cases q with
    | create image =>
      simp only [recreate] at h
      split at h
      · cases h
        exact Or.inr (Or.inl ⟨image, rest, rfl, ‹_›, rfl⟩)
      · cases h
    | step x y =>
      simp only [beginCall] at h
      split at h
      · cases h
        exact Or.inr (Or.inr (Or.inl ⟨x, y, rest, rfl, Or.inl ‹_›, rfl⟩))
      · cases h
        exact Or.inr (Or.inr (Or.inl ⟨x, y, rest, rfl, Or.inr ‹_›, rfl⟩))
      · cases h
        exact Or.inr (Or.inr (Or.inr (Or.inl ⟨x, y, rest, rfl, ‹_›, rfl⟩)))
      · split at h
        · cases h
          exact Or.inr (Or.inr (Or.inr (Or.inr ⟨x, y, rest, _, rfl, ‹_›, ‹_›, rfl⟩)))
        · cases h

/-- The inversion of `step`: a request served between calls, or one instruction inside a call. -/
theorem step_cases {s t : State} (h : step s = .next t) :
    (s.inCall = false ∧ serveCaller s = .next t) ∨
    (s.inCall = true ∧ s.fsm = .running ∧
      ((∃ f, instructionFault s = some f ∧ t = s.takeFault f) ∨
       (instructionFault s = none ∧ ∃ i, fetchDecode s = .ok i ∧ Effect i s t))) := by
  cases hc : s.inCall with
  | false => exact Or.inl ⟨rfl, step_idle hc ▸ h⟩
  | true =>
    have hr : s.fsm = .running := by
      simp only [step, transition, hc] at h
      split at h <;> simp_all
    rw [step_in_call hc hr] at h
    refine Or.inr ⟨rfl, hr, ?_⟩
    rcases execOne_cases s with ⟨f, hf, he⟩ | ⟨hf, i, u, hi, hu, he⟩ <;> rw [he] at h <;> cases h
    exacts [Or.inl ⟨f, hf, rfl⟩, Or.inr ⟨hf, i, hi, hu⟩]

end Sys2Proof.Machine
end

