-- ==== Sys2Proof/Tests/Slice0.lean ====
section
/-! SUPPORT. The model's own tests, with results taken from the spec's words and from 95_test_vectors.md, and for every
obligation with hypotheses a witness that meets them. -/
namespace Sys2Proof.Tests
open Sys2Proof Sys2Proof.Machine

/-! ## Helpers -/

/-- A machine made from `image`, in its first call `step(x, y)` (rules R140, R104). -/
def inCall (image : List Word) (x : Option Word) (y : Word) : State := (State.create image).latch x y

/-- A machine made from `image` whose caller makes the given requests next. -/
def waiting (image : List Word) (requests : List Request) : State :=
  { State.create image with requests := requests }

/-- The state after one step. -/
def after (s : State) : Option State :=
  match step s with
  | .next t => some t
  | .fault _ => none
  | .refused _ => none

/-! ## WellFormed: an ill-formed record for each check -/

theorem test_add_immediate_destination_refused :
    (Instr.add .position .position .immediate).wellFormed = false := by decide
theorem test_multiply_immediate_destination_refused :
    (Instr.multiply .relative .immediate .immediate).wellFormed = false := by decide
theorem test_saveInput_immediate_destination_refused : (Instr.saveInput .immediate).wellFormed = false := by decide
theorem test_lessThan_immediate_destination_refused :
    (Instr.lessThan .position .position .immediate).wellFormed = false := by decide
theorem test_equals_immediate_destination_refused :
    (Instr.equals .position .position .immediate).wellFormed = false := by decide
theorem test_known_opcode_as_unknown_refused :
    [1, 5, 9, 99, 100].all (fun opc => !(Instr.unknownOperation opc).wellFormed) = true := by decide
theorem test_unknown_opcodes_at_their_bounds :
    [0, 10, 98].all (fun opc => (Instr.unknownOperation opc).wellFormed) = true := by decide

/-! ## Decode: words written out from rules R51, R54, R56 (digits `m3 m2 m1 opcode`) -/

-- 2 1 0 01: operand 1 Position, operand 2 Immediate, operand 3 Relative.
theorem test_decode_add : decode 21001 = .ok (.add .position .immediate .relative) := by decide
-- Source example 1002.
theorem test_decode_multiply : decode 1002 = .ok (.multiply .position .immediate .position) := by decide
theorem test_decode_saveInput : decode 203 = .ok (.saveInput .relative) := by decide
theorem test_decode_output : decode 104 = .ok (.output .immediate) := by decide
theorem test_decode_jumpIfTrue : decode 2105 = .ok (.jumpIfTrue .immediate .relative) := by decide
theorem test_decode_jumpIfFalse : decode 1206 = .ok (.jumpIfFalse .relative .immediate) := by decide
theorem test_decode_lessThan : decode 20107 = .ok (.lessThan .immediate .position .relative) := by decide
theorem test_decode_equals : decode 1208 = .ok (.equals .relative .immediate .position) := by decide
theorem test_decode_adjustRelative : decode 209 = .ok (.adjustRelative .relative) := by decide
-- Digits an operation does not read are ignored (rule R61).
theorem test_decode_halt : decode 10099 = .ok .halt := by decide
theorem test_decode_unknownOperation : decode 1234500 = .ok (.unknownOperation 0) := by decide
-- V-H10, V-H12, V-H7.
theorem test_decode_lowest_illegal_mode_first : decode 13301 = .error (.illegalMode 1 3) := by decide
theorem test_decode_immediate_destination : decode 11101 = .error (.immediateWriteTarget 3) := by decide
theorem test_decode_negative : decode (-99) = .error (.negativeInstructionWord (-99)) := by decide
-- 22208 = 2 2 2 08, the largest canonical word (rule R65).
theorem test_encode_equals : encode (.equals .relative .relative .relative) = 22208 := by decide
theorem test_assemble_add : assemble (.add .immediate .immediate .position) [-5, 3, 5] = [1101, -5, 3, 5] := by decide
-- Two 64-bit cells given as one number: the opcode word is the low one.
theorem test_decodeTableWord : decodeTableWord 128 (7 * 2 ^ 64 + 104) = some (.output .immediate) := by decide

/-! ## One step of each instruction -/

-- S1: [1,0,0,0,99] becomes [2,0,0,0,99].
theorem test_add : (after (inCall [1, 0, 0, 0, 99] none 0)).map (·.mem) = some (Memory.ofCells 0 [2, 0, 0, 0, 99]) := by
  decide
-- V-A4: overflow faults with the exact sum.
theorem test_add_overflow :
    (after (inCall [1101, 9223372036854775807, 1, 5, 99, 0] none 0)).map (fun t => (t.pc.toInt, t.results)) =
      some (0, [.fault ⟨.arithmeticOverflow, 0, 9223372036854775808⟩]) := by decide
-- S2: [1002,4,3,4,33] becomes [1002,4,3,4,99].
theorem test_multiply :
    (after (inCall [1002, 4, 3, 4, 33] none 0)).map (fun t => (t.mem, t.pc.toInt)) =
      some (Memory.ofCells 0 [1002, 4, 3, 4, 99], 4) := by decide
-- V-M7: −2^32 × 2^31 = −2^63 fits.
theorem test_multiply_least_product :
    (after (inCall [1102, -4294967296, 2147483648, 5, 99, 0] none 0)).map (fun t => (t.mem.read 5).toInt) =
      some (-9223372036854775808) := by decide
-- V-I1 and V-I2: the explicit input once, and the fallback without one.
theorem test_saveInput_explicit :
    (after (inCall [3, 5, 3, 6, 99, 0, 0] (some 7) 9)).map (fun t => (t.mem.read 5, t.xv, t.pc)) =
      some (7, false, 2) := by decide
theorem test_saveInput_fallback :
    (after (inCall [3, 5, 3, 6, 99, 0, 0] none 9)).map (fun t => (t.mem.read 5, t.pc)) = some (9, 2) := by decide
-- S3 and V-O3.
theorem test_output :
    (after (inCall [104, 1125899906842624, 99] none 0)).map (fun t => (t.pc, t.fsm, t.inCall, t.results)) =
      some (2, .suspended, false, [.value 1125899906842624]) := by decide
theorem test_output_position : (after (inCall [4, 3, 99, -77] none 0)).map (·.results) = some [.value (-77)] := by
  decide
-- V-J3 and V-J2.
theorem test_jumpIfTrue_negative_is_true :
    (after (inCall [1105, -7, 4, 99, 104, 1, 99] none 0)).map (·.pc) = some 4 := by decide
theorem test_jumpIfTrue_not_taken :
    (after (inCall [1105, 0, 4, 99, 104, 7, 99] none 0)).map (·.pc) = some 3 := by decide
-- V-J5, and V-J8's operand rule on JumpIfFalse: the target of a jump not taken is resolved all the same (D11).
theorem test_jumpIfFalse_indirect : (after (inCall [6, 6, 7, 99, 104, 2, 0, 4] none 0)).map (·.pc) = some 4 := by decide
theorem test_jumpIfFalse_untaken_target_resolved :
    (after (inCall [6, 0, 50, 0, 99] none 0)).map (fun t => (t.pc, t.flt)) =
      some (0, some ⟨.outOfRangeAccess, 2, 50⟩) := by decide
-- V-C1 and V-C3.
theorem test_lessThan_signed : (after (inCall [1107, -1, 0, 5, 99, 9] none 0)).map (·.mem.read 5) = some 1 := by decide
theorem test_lessThan_destination_is_a_source :
    (after (inCall [7, 5, 6, 5, 99, 3, 4] none 0)).map (·.mem) = some (Memory.ofCells 0 [7, 5, 6, 5, 99, 1, 4]) := by
  decide
-- V-C4 and V-C5: 0 is written over the 7.
theorem test_equals_equal : (after (inCall [1108, 8, 8, 5, 99, 0] none 0)).map (·.mem.read 5) = some 1 := by decide
theorem test_equals_unequal : (after (inCall [1108, 8, 9, 5, 99, 7] none 0)).map (·.mem.read 5) = some 0 := by decide
-- The second instruction of V-R3: 209,1 with rb = 5 reads M[6] = 99, and rb becomes 104.
theorem test_adjustRelative_reads_through_old_base :
    (after { inCall [109, 5, 209, 1, 204, -98, 99] none 0 with pc := 2, rb := 5 }).map (fun t => (t.rb, t.pc)) =
      some (104, 4) := by decide
-- The second instruction of V-R5.
theorem test_adjustRelative_overflow :
    (after { inCall [109, 9223372036854775807, 109, 1, 99] none 0 with pc := 2, rb := 9223372036854775807 }).map
      (fun t => (t.rb.toInt, t.pc, t.flt)) =
      some (9223372036854775807, 2, some ⟨.arithmeticOverflow, 0, 9223372036854775808⟩) := by decide
-- V-H1 and V-H4: Halt in the only cell.
theorem test_halt :
    (after (inCall [99] (some 5) 6)).map (fun t => (t.pc, t.fsm, t.flt, t.xv, t.results)) =
      some (0, .halted, none, false, [.noValue]) := by decide
-- V-H2: the word 0.
theorem test_unknownOperation :
    (after (inCall [0] none 0)).map (fun t => (t.pc, t.fsm, t.flt, t.results)) =
      some (0, .halted, none, [.noValue]) := by decide
-- V-R6: the address sum is exact (D6).
theorem test_relative_address_is_exact :
    (after { inCall [109, 9223372036854775807, 204, 9223372036854775807, 99] none 0 with
        pc := 2, rb := 9223372036854775807 }).map (·.flt) =
      some (some ⟨.outOfRangeAccess, 1, 18446744073709551614⟩) := by decide
-- V-J7: a negative pc faults at the fetch.
theorem test_fetch_at_negative_pc :
    (after { inCall [1105, 1, -1, 99] none 0 with pc := -1 }).map (fun t => (t.pc, t.flt)) =
      some (-1, some ⟨.outOfRangeAccess, 0, -1⟩) := by decide

/-! ## The host's placed words, and requests -/

theorem test_withFetchWord_runs_first :
    (after (State.reset.withFetchWord 128 (7 * 2 ^ 64 + 104))).map (fun t => (t.pc, t.results)) =
      some (2, [.value 7]) := by decide
theorem test_withFetchWord_at_the_end_of_memory :
    (after ({ State.create [0] with pc := 1 }.withFetchWord 64 99)).map (·.fsm) = some .halted := by decide
theorem test_withFetchWord_after_a_fault :
    (after ({ State.create [0] with pc := -1, fsm := .faulted, flt := some ⟨.outOfRangeAccess, 0, -1⟩ }.withFetchWord 64
      1105)).map (·.pc) = some 3 := by decide
-- Rule R142: an empty image faults at the first fetch (log entry 5).
theorem test_empty_image : (after (inCall [] none 0)).map (·.flt) = some (some ⟨.outOfRangeAccess, 0, 0⟩) := by decide

/-! ## Witnesses: the hypotheses of each obligation can be met -/

theorem witness_EncodeThenDecode :
    (Instr.add .immediate .relative .relative).wellFormed = true ∧ (Instr.unknownOperation 98).wellFormed = true := by
  decide

theorem witness_DecodeReadsExactlyItsDigits :
    decode 91104 = .ok (.output .immediate) ∧ (Instr.output .immediate).wellFormed = true ∧
      0 ≤ (91104 : Word).toInt ∧ (91104 : Word).toInt % 10 ^ ((Instr.output .immediate).arity + 2) =
        (Instr.output .immediate).canonical := by decide

/-- One word for each of the three causes, at the bounds: −2^63, digit 9, SaveInput's operand. -/
theorem witness_DecodeRejectsInOrder :
    decode (-9223372036854775808) = .error (.negativeInstructionWord (-9223372036854775808)) ∧
      decode 91101 = .error (.illegalMode 3 9) ∧ decode 103 = .error (.immediateWriteTarget 1) := by decide

theorem witness_CanonicalWordsHaveTheirBounds :
    Instr.halt.wellFormed = true ∧ ∀ opc, Instr.halt ≠ .unknownOperation opc := by
  refine ⟨rfl, fun opc h => ?_⟩
  cases h

theorem witness_CreationBuildsTheMachine :
    let s := waiting [] [.create [1101, 1, 1, 0, 99]]
    s.inCall = false ∧ s.requests = .create [1101, 1, 1, 0, 99] :: [] ∧
      [1101, 1, 1, 0, 99].length ≤ Config.maxMemSize := by decide

/-- The invariant of a machine in its first call. -/
theorem inv_inCall (image : List Word) (x : Option Word) (y : Word) (h : Memory.wf (Memory.ofCells 0 image))
    (hc : ∀ c ∈ Memory.ofCells 0 image, c.1 < image.length) (hl : image.length ≤ Config.maxMemSize) :
    (inCall image x y).Inv where
  memory_canonical := h
  cells_inside := hc
  size_legal := hl
  call_is_running := fun _ => rfl
  record_iff_faulted := ⟨fun h => absurd rfl h, fun h => by cases h⟩
  record_legal := fun f hf => by cases hf
  no_input_kept := fun h => by cases h
  fresh_if_waiting := fun h => by cases h
  halted_at_halt := fun h => by cases h

/-- The image of V-S1, whose Add writes the word after it. -/
def storeAhead : State := inCall [1101, 4, 100, 4, 0, 42, 99] none 0

theorem inv_storeAhead : storeAhead.Inv := inv_inCall _ _ _ (by decide) (by decide) (by decide)

theorem witness_EveryStepKeepsTheInvariant : storeAhead.Inv ∧ ∃ t, step storeAhead = .next t :=
  ⟨inv_storeAhead, _, rfl⟩

/-- The largest legal request list is any list of step calls and images in range. -/
theorem witness_EveryStepHasANextState :
    State.Inv { storeAhead with requests := [.step none 3, .create [99]] } ∧
      ∀ r ∈ ({ storeAhead with requests := [.step none 3, .create [99]] } : State).requests, r.Legal := by
  refine ⟨?_, ?_⟩
  · have h := inv_storeAhead
    exact ⟨h.1, h.2, h.3, h.4, h.5, h.6, h.7, h.8, h.9⟩
  · intro r hr
    simp only [List.mem_cons, List.not_mem_nil, or_false] at hr
    rcases hr with rfl | rfl
    · trivial
    · show [99].length ≤ Config.maxMemSize
      decide

theorem witness_StepRunsTheDecodedInstruction :
    storeAhead.inCall = true ∧ storeAhead.fsm = .running ∧ storeAhead.InRange storeAhead.pc.toInt ∧
      decode (storeAhead.mem.read storeAhead.pc.toInt.toNat) = .ok (.add .immediate .immediate .position) := by decide

/-- The first cell past the end, and the first before cell 0. -/
theorem witness_FetchOutsideMemoryFaults :
    let s : State := { inCall [99] none 0 with pc := 1 }
    let t : State := { inCall [99] none 0 with pc := -1 }
    (s.inCall = true ∧ s.fsm = .running ∧ ¬s.InRange s.pc.toInt) ∧
      (t.inCall = true ∧ t.fsm = .running ∧ ¬t.InRange t.pc.toInt) := by decide

/-- One state for each cause: V-H6, V-H8, V-H14. -/
theorem witness_RejectedWordFaults :
    ∀ c ∈ [((-1 : Word), DecodeFault.negativeInstructionWord (-1)), (301, .illegalMode 1 3),
        (11101, .immediateWriteTarget 3)],
      let s := inCall [c.1] none 0
      s.inCall = true ∧ s.fsm = .running ∧ s.InRange s.pc.toInt ∧
        decode (s.mem.read s.pc.toInt.toNat) = .error c.2 := by decide

/-- A fresh machine with an explicit input, and a suspended one without. -/
theorem witness_CallLatchesItsInputs :
    let s := waiting [99] [.step (some 7) 9]
    let t : State := { waiting [104, 1, 99] [.step none 9] with fsm := .suspended, pc := 2 }
    (s.inCall = false ∧ (s.fsm = .running ∨ s.fsm = .suspended) ∧ s.requests = .step (some 7) 9 :: []) ∧
      (t.inCall = false ∧ (t.fsm = .running ∨ t.fsm = .suspended) ∧ t.requests = .step none 9 :: []) := by decide

/-- A suspended machine being resumed, and a halted one being called. -/
theorem witness_StateSurvivesBetweenCalls :
    ∀ fsm ∈ [RunState.suspended, .halted],
      let s : State := { waiting [99] [.step none 9] with fsm := fsm }
      s.inCall = false ∧ (∀ image rest, s.requests ≠ .create image :: rest) ∧ ∃ t, step s = .next t := by
  intro fsm h
  simp only [List.mem_cons, List.not_mem_nil, or_false] at h
  rcases h with rfl | rfl
  · exact ⟨rfl, fun _ _ h => (by cases h), _, rfl⟩
  · exact ⟨rfl, fun _ _ h => (by cases h), _, rfl⟩

theorem witness_HaltedMachineAnswersNoValue :
    let s : State := { waiting [99] [.step none 1, .step (some 2) 3] with fsm := .halted }
    s.inCall = false ∧ s.fsm = .halted ∧ s.requests = [.step none 1, .step (some 2) 3] ∧
      ∀ r ∈ s.requests, r.isStep = true := by decide

theorem witness_FaultedMachineRepeatsItsFault :
    let s : State := { waiting [-1] [.step none 1, .step (some 2) 3] with
      fsm := .faulted, flt := some ⟨.negativeInstructionWord, 0, -1⟩ }
    s.inCall = false ∧ s.fsm = .faulted ∧ s.flt = some ⟨.negativeInstructionWord, 0, -1⟩ ∧
      s.requests = [.step none 1, .step (some 2) 3] ∧ ∀ r ∈ s.requests, r.isStep = true := by decide

theorem witness_IdleMachineWaits : State.reset.inCall = false ∧ State.reset.requests = [] := by decide

/-- V-A2: the largest storable sum, in a cell at the end of memory. -/
theorem witness_AddStoresTheExactSum :
    let s := inCall [1101, 9223372036854775807, 0, 5, 99, 0] none 0
    Memory.wf s.mem ∧ s.memSize ≤ Config.maxMemSize ∧ SourceReadable s 1 .immediate ∧ SourceReadable s 2 .immediate ∧
      DestinationAt s 3 .position 5 ∧
      FitsInt64 ((sourceValue s 1 .immediate).toInt + (sourceValue s 2 .immediate).toInt) := by decide

/-- V-M7: the least storable product. -/
theorem witness_MultiplyStoresTheExactProduct :
    let s := inCall [1102, -4294967296, 2147483648, 5, 99, 0] none 0
    Memory.wf s.mem ∧ s.memSize ≤ Config.maxMemSize ∧ SourceReadable s 1 .immediate ∧ SourceReadable s 2 .immediate ∧
      DestinationAt s 3 .position 5 ∧
      FitsInt64 ((sourceValue s 1 .immediate).toInt * (sourceValue s 2 .immediate).toInt) := by decide

/-- Relative operands at both ends of memory (cells 0 and 5 with `rb` = 3), for the two comparisons. -/
theorem witness_LessThanStoresTheSignedComparison :
    let s : State := { inCall [22207, -3, 0, 2, 99, 4] none 0 with rb := 3 }
    Memory.wf s.mem ∧ s.memSize ≤ Config.maxMemSize ∧ SourceReadable s 1 .relative ∧ SourceReadable s 2 .relative ∧
      DestinationAt s 3 .relative 5 := by decide

theorem witness_EqualsStoresTheComparison :
    let s : State := { inCall [22208, -3, 0, 2, 99, 4] none 0 with rb := 3 }
    Memory.wf s.mem ∧ s.memSize ≤ Config.maxMemSize ∧ SourceReadable s 1 .relative ∧ SourceReadable s 2 .relative ∧
      DestinationAt s 3 .relative 5 := by decide

/-- V-I4: the destination is the instruction's own operand word; with and without an explicit input. -/
theorem witness_SaveInputStoresTheInput :
    (let s := inCall [3, 1, 99] (some 42) 8
     Memory.wf s.mem ∧ s.memSize ≤ Config.maxMemSize ∧ DestinationAt s 1 .position 1 ∧ s.xv = true) ∧
    (let s := inCall [3, 1, 99] none 8
     Memory.wf s.mem ∧ s.memSize ≤ Config.maxMemSize ∧ DestinationAt s 1 .position 1 ∧ s.xv = false) := by decide

/-- V-O4: an Output in the last two cells. -/
theorem witness_OutputYieldsAndSuspends :
    let s := inCall [104, 5] none 0
    s.memSize ≤ Config.maxMemSize ∧ SourceReadable s 1 .immediate := by decide

/-- The condition true and false, for the two jumps and their complement. -/
theorem witness_JumpIfTrueJumpsOrAdvances :
    (let s := inCall [1105, -7, 4] none 0
     s.memSize ≤ Config.maxMemSize ∧ SourceReadable s 1 .immediate ∧ SourceReadable s 2 .immediate) ∧
    (let s := inCall [1105, 0, 4] none 0
     s.memSize ≤ Config.maxMemSize ∧ SourceReadable s 1 .immediate ∧ SourceReadable s 2 .immediate) := by decide

theorem witness_JumpIfFalseJumpsOrAdvances :
    (let s := inCall [1106, -7, 4] none 0
     s.memSize ≤ Config.maxMemSize ∧ SourceReadable s 1 .immediate ∧ SourceReadable s 2 .immediate) ∧
    (let s := inCall [1106, 0, 4] none 0
     s.memSize ≤ Config.maxMemSize ∧ SourceReadable s 1 .immediate ∧ SourceReadable s 2 .immediate) := by decide

theorem witness_JumpsAreComplements :
    (let s := inCall [5, 3, 1, -7] none 0
     SourceReadable s 1 .position ∧ SourceReadable s 2 .position) ∧
    (let s := inCall [5, 3, 1, 0] none 0
     SourceReadable s 1 .position ∧ SourceReadable s 2 .position) := by decide

/-- The base moves to the greatest Int64. -/
theorem witness_AdjustRelativeMovesTheBase :
    let s : State := { inCall [109, 1] none 0 with rb := 9223372036854775806 }
    s.memSize ≤ Config.maxMemSize ∧ SourceReadable s 1 .immediate ∧
      FitsInt64 (s.rb.toInt + (sourceValue s 1 .immediate).toInt) := by decide

/-- Halt in the last cell, and an unknown opcode there. -/
theorem witness_HaltWordStopsTheCall :
    (let s : State := { inCall [104, 7, 199] none 0 with pc := 2 }
     s.inCall = true ∧ s.fsm = .running ∧ s.InRange s.pc.toInt ∧
       decode (s.mem.read s.pc.toInt.toNat) = .ok .halt) ∧
    (let s : State := { inCall [104, 7, 198] none 0 with pc := 2 }
     s.inCall = true ∧ s.fsm = .running ∧ s.InRange s.pc.toInt ∧
       decode (s.mem.read s.pc.toInt.toNat) = .ok (.unknownOperation 98)) := by decide

/-- The least overflow of each kind: V-A5, V-M3, and `rb` = −2^63 adjusted by −1 (rule R98). -/
theorem witness_OverflowFaultsAndStoresNothing :
    (let s := inCall [1101, -9223372036854775808, -1, 5, 99, 0] none 0
     SourceReadable s 1 .immediate ∧ SourceReadable s 2 .immediate ∧ DestinationAt s 3 .position 5 ∧
       ¬FitsInt64 ((sourceValue s 1 .immediate).toInt + (sourceValue s 2 .immediate).toInt)) ∧
    (let s := inCall [1102, -9223372036854775808, -1, 5, 99, 0] none 0
     SourceReadable s 1 .immediate ∧ SourceReadable s 2 .immediate ∧ DestinationAt s 3 .position 5 ∧
       ¬FitsInt64 ((sourceValue s 1 .immediate).toInt * (sourceValue s 2 .immediate).toInt)) ∧
    (let s : State := { inCall [109, -1] none 0 with rb := -9223372036854775808 }
     SourceReadable s 1 .immediate ∧ ¬FitsInt64 (s.rb.toInt + (sourceValue s 1 .immediate).toInt)) := by decide

/-- The third operand word of an Add is the first cell past the end. -/
theorem witness_OperandWordOutsideMemoryFaults :
    let s := inCall [1, 0, 0] none 0
    let i := Instr.add .position .position .position
    3 ≤ i.arity ∧ ¬s.InRange (s.pc.toInt + (3 : Nat)) ∧ s.InRange (s.pc.toInt + (1 : Nat)) ∧
      s.InRange (s.pc.toInt + (2 : Nat)) := by decide

theorem witness_OperandWordOutsideMemoryFaults_met :
    let s := inCall [1, 0, 0] none 0
    ∀ j : Nat, 1 ≤ j → j < 3 → s.InRange (s.pc.toInt + j) := by
  intro s j h1 h2
  interval_cases j <;> decide

/-- The destination of a SaveInput is the first cell past the end. -/
theorem witness_OperandAddressOutsideMemoryFaults :
    let s := inCall [3, 2] none 0
    let i := Instr.saveInput .position
    (∀ j : Nat, 1 ≤ j → j ≤ i.arity → s.InRange (s.pc.toInt + j)) ∧ i.modes[1 - 1]? = some .position ∧
      effectiveAddress s .position (rawOperand s 1) = some 2 ∧ ¬s.InRange 2 ∧
      ∀ (j : Nat) (n : Mode) (b : Int), 1 ≤ j → j < 1 → i.modes[j - 1]? = some n →
        effectiveAddress s n (rawOperand s j) = some b → s.InRange b := by
  refine ⟨fun j h1 h2 => ?_, by decide, by decide, by decide, fun j n b h1 h2 => by omega⟩
  have : j = 1 := by
    have h3 : j ≤ 1 := h2
    omega
  subst this
  decide

theorem witness_ImmediateDestinationFaults :
    let s := inCall [11101, 1, 1, 0] none 0
    SourceReadable s 1 .immediate ∧ SourceReadable s 2 .immediate ∧ s.InRange (s.pc.toInt + 3) ∧
      s.InRange (s.pc.toInt + 1) := by decide

/-- A step that completes and one that faults. -/
theorem witness_PcAfterEveryInstruction :
    ∀ image ∈ [[1101, 4, 100, 4, 0], [(-1 : Word)]],
      let s := inCall image none 0
      s.inCall = true ∧ s.memSize ≤ Config.maxMemSize ∧ (after s).isSome = true := by decide

theorem witness_OnlyAdjustRelativeMovesTheBase :
    ∃ t, step (inCall [109, 19] none 0) = .next t ∧ t.rb ≠ (inCall [109, 19] none 0).rb :=
  ⟨_, rfl, by decide⟩

theorem witness_OnlyStoringInstructionsChangeMemory :
    ∃ t, step storeAhead = .next t ∧ t.mem ≠ storeAhead.mem := ⟨_, rfl, by decide⟩

theorem witness_EveryTransitionIsInTheTable : storeAhead.Inv ∧ ∃ t, step storeAhead = .next t :=
  ⟨inv_storeAhead, _, rfl⟩

theorem witness_FaultsArePrecise :
    ∃ t, (inCall [3, 50, 99] (some 5) 6).inCall = true ∧ step (inCall [3, 50, 99] (some 5) 6) = .next t ∧
      t.fsm = .faulted := ⟨_, rfl, rfl, rfl⟩

/-- A running machine that faults now, and a faulted one that is called again. -/
theorem witness_FaultRecordStaysReproducible :
    (let s := inCall [-1] none 0
     (s.fsm = .faulted → faultRaised s = s.flt) ∧ ∃ t, step s = .next t ∧ t.fsm = .faulted) ∧
    (let s : State := { waiting [-1] [.step none 1] with
       fsm := .faulted, flt := some ⟨.negativeInstructionWord, 0, -1⟩ }
     (s.fsm = .faulted → faultRaised s = s.flt) ∧ ∃ t, step s = .next t ∧ t.fsm = .faulted) :=
  ⟨⟨fun h => (by cases h), _, rfl, rfl⟩, fun _ => (by decide), _, rfl, rfl⟩

theorem witness_EveryCallGetsOneResult :
    ∃ t, step (inCall [104, 7] none 0) = .next t ∧ t.results ≠ (inCall [104, 7] none 0).results :=
  ⟨_, rfl, by decide⟩

/-- V-I3's first call: the explicit input is not consumed before the call ends. -/
theorem witness_EndOfCallDropsTheInput :
    ∃ t, (inCall [104, 1, 3, 7] (some 55) 8).inCall = true ∧ step (inCall [104, 1, 3, 7] (some 55) 8) = .next t ∧
      t.inCall = false := ⟨_, rfl, rfl, rfl⟩

/-- V-S1: 4 + 100 = 104 is stored in the next cell and runs as an Output; and a SaveInput that stores the operand word
of the Output after it. -/
theorem witness_StoredWordIsFetchedNext :
    (storeAhead.Inv ∧ storeAhead.inCall = true ∧ storeAhead.InRange storeAhead.pc.toInt ∧
      decode (storeAhead.mem.read storeAhead.pc.toInt.toNat) = .ok (.add .immediate .immediate .position) ∧
      (Instr.add .immediate .immediate .position).destination = some 3 ∧
      (Instr.add .immediate .immediate .position).modes[3 - 1]? = some .position ∧
      (∀ (n : Nat) (m : Mode), 1 ≤ n → n < 3 → (Instr.add .immediate .immediate .position).modes[n - 1]? = some m →
        SourceReadable storeAhead n m) ∧
      DestinationAt storeAhead 3 .position 4 ∧
      storedValue storeAhead (.add .immediate .immediate .position) = some 104 ∧ FitsInt64 104 ∧
      decode (BitVec.ofInt 64 104) = .ok (.output .immediate) ∧ (4 : Int) = storeAhead.pc.toInt + (3 : Nat) + 1) ∧
    (let s := inCall [3, 3, 104, 0] (some 7) 0
     s.Inv ∧ s.inCall = true ∧ s.InRange s.pc.toInt ∧
      decode (s.mem.read s.pc.toInt.toNat) = .ok (.saveInput .position) ∧ DestinationAt s 1 .position 3 ∧
      storedValue s (.saveInput .position) = some 7 ∧ FitsInt64 7 ∧
      (3 : Int) = s.pc.toInt + (1 : Nat) + 1 + (1 : Nat)) := by
  refine ⟨⟨inv_storeAhead, by decide, by decide, by decide, rfl, rfl, fun n m h1 h2 hm => ?_, by decide⟩,
    inv_inCall _ _ _ (by decide) (by decide) (by decide), by decide⟩
  obtain rfl | rfl : n = 1 ∨ n = 2 := by omega
  · cases hm
    decide
  · cases hm
    decide

/-- V-J10, and the same loop written with JumpIfFalse. -/
theorem witness_JumpToItselfNeverReturns :
    (let s := inCall [1105, 1, 0] none 0
     s.inCall = true ∧ s.fsm = .running ∧ s.InRange s.pc.toInt ∧ SourceReadable s 1 .immediate ∧
       SourceReadable s 2 .immediate ∧ sourceValue s 2 .immediate = s.pc ∧
       decode (s.mem.read s.pc.toInt.toNat) = .ok (.jumpIfTrue .immediate .immediate) ∧
       (sourceValue s 1 .immediate).toInt ≠ 0) ∧
    (let s := inCall [1106, 0, 0] none 0
     s.inCall = true ∧ s.fsm = .running ∧ s.InRange s.pc.toInt ∧ SourceReadable s 1 .immediate ∧
       SourceReadable s 2 .immediate ∧ sourceValue s 2 .immediate = s.pc ∧
       decode (s.mem.read s.pc.toInt.toNat) = .ok (.jumpIfFalse .immediate .immediate) ∧
       (sourceValue s 1 .immediate).toInt = 0) := by decide

/-- Two idle machines with different stale inputs, and two machines in a call whose explicit input is used up. -/
theorem witness_DeadLatchesHaveNoInfluence :
    SameButDeadLatches (waiting [99] []) { waiting [99] [] with xin := 5, sig := 6 } ∧
    SameButDeadLatches (inCall [99] none 3) { inCall [99] none 3 with xin := 5 } :=
  ⟨⟨rfl, fun h => (by cases h)⟩, rfl, fun _ => ⟨rfl, rfl, fun h => (by cases h)⟩⟩

/-- One state for each outcome of rule R70: it goes on, yields, stops, raises. -/
theorem witness_StepRefinesExecOne :
    ∀ image ∈ [[1101, 1, 1, 0, 99], [104, 7], [99], [(-1 : Word)]],
      let s := inCall image none 0
      Memory.wf s.mem ∧ s.memSize ≤ Config.maxMemSize ∧ s.inCall = true ∧ s.fsm = .running := by decide

/-- One call for each kind of result; the fault's value is the greatest product, 2^126. -/
theorem witness_EveryResultFitsItsPorts :
    ∀ image ∈ [[104, 7], [99], [1102, -9223372036854775808, -9223372036854775808, 0]],
      let s := inCall image none 0
      s.inCall = true ∧ (after s).map (·.inCall) = some false := by decide

/-- An instruction in a call, and a request served between calls with another one behind it. -/
theorem witness_CallersListsHaveNoInfluence :
    (storeAhead.inCall = true ∧ ∃ t, step storeAhead = .next t) ∧
    (let s := waiting [99] [.step none 1, .create [0]]
     s.inCall = false ∧ s.requests = .step none 1 :: [.create [0]] ∧ ∃ t, step s = .next t) :=
  ⟨⟨rfl, _, rfl⟩, rfl, rfl, _, rfl⟩

/-- The ports ask for `step(Some 7, 9)`. -/
def callPorts : RequestPorts := ⟨false, [], true, true, 7, 9⟩

/-- A request sampled by an idle machine, and ports ignored in a call and by a machine that has accepted a request. -/
theorem witness_PortsCarryOneTransactionAtATime_sampled :
    ((waiting [99] []).PortDriven ∧ (waiting [99] []).Sampled callPorts (waiting [99] [.step (some 7) 9])) ∧
    ((waiting [99] [.step none 1]).PortDriven ∧ 1 ≤ (waiting [99] [.step none 1]).openCalls ∧
      (waiting [99] [.step none 1]).Sampled callPorts (waiting [99] [.step none 1])) ∧
    (storeAhead.PortDriven ∧ 1 ≤ storeAhead.openCalls ∧ storeAhead.Sampled callPorts storeAhead) :=
  ⟨⟨by unfold State.PortDriven; decide, Or.inr (Or.inr ⟨rfl, _, Or.inr ⟨rfl, rfl, rfl⟩, rfl⟩)⟩,
    ⟨by unfold State.PortDriven; decide, by decide, Or.inl ⟨rfl, rfl⟩⟩,
    by unfold State.PortDriven; decide, by decide, Or.inl ⟨rfl, rfl⟩⟩

/-- A call that goes on, one that ends, and a `create`. -/
theorem witness_PortsCarryOneTransactionAtATime_stepped :
    (storeAhead.PortDriven ∧ storeAhead.openCalls = 1 ∧ ∃ t, step storeAhead = .next t ∧ t.inCall = true) ∧
    ((inCall [99] none 0).PortDriven ∧ (inCall [99] none 0).openCalls = 1 ∧
      ∃ t, step (inCall [99] none 0) = .next t ∧ t.inCall = false) ∧
    ((waiting [] [.create [99]]).inCall = false ∧ (waiting [] [.create [99]]).requests = [.create [99]] ∧
      ∃ t, step (waiting [] [.create [99]]) = .next t) :=
  ⟨⟨by unfold State.PortDriven; decide, by decide, _, rfl, rfl⟩,
    ⟨by unfold State.PortDriven; decide, by decide, _, rfl, rfl⟩, rfl, rfl, _, rfl⟩

/-- V-M3's record on the ports of rule R113. -/
theorem test_ports_show_a_fault :
    (⟨true, false, 0, true, 5, 0, 9223372036854775808⟩ : ResultPorts).Shows
      (.fault ⟨.arithmeticOverflow, 0, 9223372036854775808⟩) := ⟨rfl, rfl, rfl, rfl, rfl, by decide⟩

theorem test_ports_ask_for_a_call : callPorts.Asks (.step (some 7) 9) :=
  Or.inr ⟨rfl, rfl, rfl⟩

end Sys2Proof.Tests
end

section
/-! Where each instruction leaves `pc` (rule R13): one lemma per shape of effect, then O35. -/
namespace Sys2Proof.Machine

/-- An instruction that raises no fault never leaves a running machine Faulted. -/
theorem Effect.fsm_ne_faulted {i : Instr} {s t : State} (hr : s.fsm = .running) (h : Effect i s t) :
    t.fsm ≠ .faulted := by
  obtain ⟨-, -, ht⟩ | ⟨m, -, rfl⟩ | ⟨-, rfl⟩ := effect_cases h
  · rw [ht]
    simp [hr]
  · simp
  · simp

section
variable {s t : State} {m1 m2 m3 : Mode}

theorem StoreEffect.pc_toInt {x : Word → Word → Int} (hs : s.memSize ≤ Config.maxMemSize)
    (h : StoreEffect s t m1 m2 m3 x) : t.pc.toInt = s.pc.toInt + 4 := by
  obtain ⟨-, -, a, v, hd, -, rfl⟩ := h
  exact toInt_pc_advance (s := s) (n := 4) hs (by decide) hd.1

theorem JumpEffect.pc_toInt {p : Word → Bool} (hs : s.memSize ≤ Config.maxMemSize) (h : JumpEffect s t m1 m2 p) :
    t.pc.toInt = if p (sourceValue s 1 m1) = true then (sourceValue s 2 m2).toInt else s.pc.toInt + 3 := by
  obtain ⟨-, h2, rfl⟩ := h
  split
  · rfl
  · exact toInt_pc_advance (n := 3) hs (by decide) h2.1

end

/-- Settles O35: the step's inversion separates the fault from the effect of the decoded instruction, and each effect is
one of the shapes above. An advance is exact because the instruction's last word lies in memory (rule R81). -/
theorem pcAfterEveryInstruction : Obligations.PcAfterEveryInstruction := by
  unfold Obligations.PcAfterEveryInstruction
  intro s t hc hs hstep
  obtain ⟨hidle, -⟩ | ⟨-, hr, ⟨f, -, rfl⟩ | ⟨-, i, hi, he⟩⟩ := step_cases hstep
  · simp [hc] at hidle
  · exact ⟨fun _ => rfl, fun hne => absurd rfl hne⟩
  · refine ⟨fun hf => absurd hf (he.fsm_ne_faulted hr), fun _ => ⟨i, (fetchDecode_eq_ok_iff.mp hi).2, ?_⟩⟩
    cases i with
    | add a b dst => exact StoreEffect.pc_toInt (x := fun v1 v2 => v1.toInt + v2.toInt) hs he
    | multiply a b dst => exact StoreEffect.pc_toInt (x := fun v1 v2 => v1.toInt * v2.toInt) hs he
    | lessThan a b dst => exact StoreEffect.pc_toInt (x := fun v1 v2 => if v1.toInt < v2.toInt then 1 else 0) hs he
    | equals a b dst => exact StoreEffect.pc_toInt (x := fun v1 v2 => if v1 = v2 then 1 else 0) hs he
    | saveInput dst =>
      obtain ⟨a, hd, rfl⟩ := he
      exact toInt_pc_advance (s := s) (n := 2) hs (by decide) hd.1
    | adjustRelative a =>
      obtain ⟨hsrc, b, -, rfl⟩ := he
      exact toInt_pc_advance (s := s) (n := 2) hs (by decide) hsrc.1
    | output src =>
      obtain ⟨hsrc, rfl⟩ := he
      exact toInt_pc_advance (n := 2) hs (by decide) hsrc.1
    | jumpIfTrue cond target => simpa only [isTrue_iff] using JumpEffect.pc_toInt hs he
    | jumpIfFalse cond target =>
      simpa only [Bool.not_eq_true', ← Bool.not_eq_true, isTrue_iff, not_not] using
        JumpEffect.pc_toInt (p := fun v => !isTrue v) hs he
    | halt =>
      obtain rfl := he
      rfl
    | unknownOperation opc =>
      obtain rfl := he
      rfl

end Sys2Proof.Machine
end

section
/-! What lives on between calls (rule R45): O15. -/
namespace Sys2Proof.Machine

/-- Settles O15: outside a call and without `create`, a step waits, begins a call or answers one on a stopped machine.
None of the three touches memory, `pc` or `rb`, and a Halted machine begins no call. -/
theorem stateSurvivesBetweenCalls : Obligations.StateSurvivesBetweenCalls := by
  unfold Obligations.StateSurvivesBetweenCalls
  intro s t hidle hnocreate hstep
  obtain ⟨-, rfl⟩ | ⟨image, rest, hq, -⟩ | ⟨x, y, rest, -, hactive, rfl⟩ | ⟨x, y, rest, -, -, rfl⟩ |
    ⟨x, y, rest, f, -, -, -, rfl⟩ := serveCaller_cases (step_idle hidle ▸ hstep)
  · exact ⟨rfl, rfl, rfl, rfl, fun hhalted => ⟨hhalted, hidle⟩⟩
  · exact absurd hq (hnocreate image rest)
  · have hne : s.fsm ≠ .halted := by rcases hactive with h | h <;> simp [h]
    exact ⟨rfl, rfl, rfl, rfl, fun hhalted => absurd hhalted hne⟩
  · exact ⟨rfl, rfl, rfl, rfl, fun hhalted => ⟨hhalted, hidle⟩⟩
  · exact ⟨rfl, rfl, rfl, rfl, fun hhalted => ⟨hhalted, hidle⟩⟩

end Sys2Proof.Machine
end

section
/-! How a call begins (rule R104): a step request on an active machine, then O14. -/
namespace Sys2Proof.Machine

/-- Running and Suspended are the run states in which a call is accepted (rule R104). -/
theorem beginCall_of_active {s : State} (hactive : s.fsm = .running ∨ s.fsm = .suspended) (x : Option Word)
    (y : Word) : beginCall s x y = .next (s.latch x y) := by
  rcases hactive with h | h <;> simp only [beginCall, h]

/-- The whole transition that begins a call, as one equation. -/
theorem step_of_stepRequest_active {s : State} {x : Option Word} {y : Word} {rest : List Request}
    (hidle : s.inCall = false) (hactive : s.fsm = .running ∨ s.fsm = .suspended)
    (hq : s.requests = .step x y :: rest) : step s = .next (State.latch { s with requests := rest } x y) := by
  have hserve : serveCaller s = beginCall { s with requests := rest } x y := by simp only [serveCaller, hq]
  rw [step_idle hidle, hserve, beginCall_of_active (s := { s with requests := rest }) hactive]

/-- Settles O14: the step request begins the call, and what it latches is read off `latch`. With no explicit input
`xv` is down and `xin` is the old one, so the two cases of the argument are the two clauses on `xv`. -/
theorem callLatchesItsInputs : Obligations.CallLatchesItsInputs := by
  unfold Obligations.CallLatchesItsInputs
  intro s x y rest hidle hactive hq
  refine ⟨State.latch { s with requests := rest } x y, step_of_stepRequest_active hidle hactive hq,
    rfl, rfl, rfl, ?_, ?_, rfl⟩
  · rintro v rfl
    exact ⟨rfl, rfl⟩
  · rintro rfl
    rfl

end Sys2Proof.Machine
end

section
/-! The decoder against the canonical words (rules R51, R61, R64, R65): what `decode` accepts, then
O2, O3, O1 and O5. -/
namespace Sys2Proof

/-- The decimal digits of `n`, from the units digit up, are those of the given modes. -/
def HasDigits (n : Nat) : List Mode → Prop
  | [] => True
  | m :: ms => n % 10 = m.digit ∧ HasDigits (n / 10) ms

theorem hasDigits_iff {ms : List Mode} {n : Nat} : HasDigits n ms ↔ n % 10 ^ ms.length = modeDigits ms := by
  induction ms generalizing n with
  | nil => simp [HasDigits, modeDigits, Nat.mod_one]
  | cons m ms ih =>
    have hm := mode_digit_le_two m
    simp only [HasDigits, ih, modeDigits, List.length_cons, Nat.pow_succ', Nat.mod_mul]
    omega

theorem modeDigits_lt (ms : List Mode) : modeDigits ms < 10 ^ ms.length := by
  induction ms with
  | nil => simp [modeDigits]
  | cons m ms ih =>
    have hm := mode_digit_le_two m
    simp only [modeDigits, List.length_cons, Nat.pow_succ']
    omega

theorem hasDigits_one {n : Nat} {m1 : Mode} : HasDigits (n / 100) [m1] ↔ digit 2 n = m1.digit := by
  simp [HasDigits, digit]

theorem hasDigits_two {n : Nat} {m1 m2 : Mode} :
    HasDigits (n / 100) [m1, m2] ↔ digit 2 n = m1.digit ∧ digit 3 n = m2.digit := by
  simp [HasDigits, digit, Nat.div_div_eq_div_mul]

theorem hasDigits_three {n : Nat} {m1 m2 m3 : Mode} :
    HasDigits (n / 100) [m1, m2, m3] ↔ digit 2 n = m1.digit ∧ digit 3 n = m2.digit ∧ digit 4 n = m3.digit := by
  simp [HasDigits, digit, Nat.div_div_eq_div_mul]

/-- What an accepted word says: the instruction is well formed, its opcode and its mode digits stand in the word. -/
def ReadsAs (n : Nat) (i : Instr) : Prop :=
  i.wellFormed = true ∧ opcodeOf n = i.opcode ∧ HasDigits (n / 100) i.modes

theorem opcode_lt_of_wellFormed {i : Instr} (hw : i.wellFormed = true) : i.opcode < 100 := by
  cases i with
  | unknownOperation opc =>
    simp only [Instr.wellFormed, unknownOpcode, Bool.or_eq_true, beq_iff_eq, Bool.and_eq_true, decide_eq_true_eq] at hw
    simp only [Instr.opcode]
    omega
  | _ => simp [Instr.opcode]

/-- The opcode and the digits of `i`, read as one number. -/
theorem readsAs_iff_mod {n : Nat} {i : Instr} :
    ReadsAs n i ↔ i.wellFormed = true ∧ n % 10 ^ (i.arity + 2) = i.canonical := by
  unfold ReadsAs
  refine and_congr_right fun hw => ?_
  have ho := opcode_lt_of_wellFormed hw
  rw [hasDigits_iff, Instr.canonical, Instr.arity, Nat.add_comm, Nat.pow_add, Nat.mod_mul, opcodeOf,
    show (10 : Nat) ^ 2 = 100 from rfl]
  omega

section
variable {n : Nat} {i : Instr}

theorem readsAs_of_decodeF3 {mk : Mode → Mode → Mode → Instr} (h : decodeF3 n mk = .ok i)
    (hmk : ∀ m1 m2 m3, m3.writable = true → HasDigits (n / 100) [m1, m2, m3] → ReadsAs n (mk m1 m2 m3)) :
    ReadsAs n i := by
  obtain ⟨m1, m2, m3, h1, h2, h3, hw, rfl⟩ := decodeF3_eq_ok_iff.mp h
  exact hmk m1 m2 m3 hw (hasDigits_three.mpr ⟨h1, h2, h3⟩)

theorem readsAs_of_decodeF2 {mk : Mode → Mode → Instr} (h : decodeF2 n mk = .ok i)
    (hmk : ∀ m1 m2, HasDigits (n / 100) [m1, m2] → ReadsAs n (mk m1 m2)) : ReadsAs n i := by
  obtain ⟨m1, m2, h1, h2, rfl⟩ := decodeF2_eq_ok_iff.mp h
  exact hmk m1 m2 (hasDigits_two.mpr ⟨h1, h2⟩)

theorem readsAs_of_decodeF1Source {mk : Mode → Instr} (h : decodeF1Source n mk = .ok i)
    (hmk : ∀ m1, HasDigits (n / 100) [m1] → ReadsAs n (mk m1)) : ReadsAs n i := by
  obtain ⟨m1, h1, rfl⟩ := decodeF1Source_eq_ok_iff.mp h
  exact hmk m1 (hasDigits_one.mpr h1)

theorem readsAs_of_decodeF1Destination {mk : Mode → Instr} (h : decodeF1Destination n mk = .ok i)
    (hmk : ∀ m1, m1.writable = true → HasDigits (n / 100) [m1] → ReadsAs n (mk m1)) : ReadsAs n i := by
  obtain ⟨m1, h1, hw, rfl⟩ := decodeF1Destination_eq_ok_iff.mp h
  exact hmk m1 hw (hasDigits_one.mpr h1)

/-- What the decoder answers stands in the word. -/
theorem readsAs_of_decodeDigits (h : decodeDigits n = .ok i) : ReadsAs n i := by
  rcases decodeDigits_cases n with ⟨ho, hd⟩ | ⟨ho, hd⟩ | ⟨ho, hd⟩ | ⟨ho, hd⟩ | ⟨ho, hd⟩ | ⟨ho, hd⟩ | ⟨ho, hd⟩ |
    ⟨ho, hd⟩ | ⟨ho, hd⟩ | ⟨ho, hd⟩ | ⟨ho, hd⟩ <;> rw [hd] at h
  · exact readsAs_of_decodeF3 h fun _ _ _ hw hs => ⟨hw, ho, hs⟩
  · exact readsAs_of_decodeF3 h fun _ _ _ hw hs => ⟨hw, ho, hs⟩
  · exact readsAs_of_decodeF1Destination h fun _ hw hs => ⟨hw, ho, hs⟩
  · exact readsAs_of_decodeF1Source h fun _ hs => ⟨rfl, ho, hs⟩
  · exact readsAs_of_decodeF2 h fun _ _ hs => ⟨rfl, ho, hs⟩
  · exact readsAs_of_decodeF2 h fun _ _ hs => ⟨rfl, ho, hs⟩
  · exact readsAs_of_decodeF3 h fun _ _ _ hw hs => ⟨hw, ho, hs⟩
  · exact readsAs_of_decodeF3 h fun _ _ _ hw hs => ⟨hw, ho, hs⟩
  · exact readsAs_of_decodeF1Source h fun _ hs => ⟨rfl, ho, hs⟩
  · cases h
    exact ⟨rfl, ho, trivial⟩
  · cases h
    exact ⟨ho, rfl, trivial⟩

/-- The opcode map, entered at the row of `i`. -/
theorem decodeDigits_of_readsAs (h : ReadsAs n i) : decodeDigits n = .ok i := by
  obtain ⟨hw, ho, hs⟩ := h
  unfold decodeDigits
  rw [ho]
  cases i with
  | add a b dst =>
    obtain ⟨h1, h2, h3⟩ := hasDigits_three.mp hs
    exact decodeF3_eq_ok_iff.mpr ⟨a, b, dst, h1, h2, h3, hw, rfl⟩
  | multiply a b dst =>
    obtain ⟨h1, h2, h3⟩ := hasDigits_three.mp hs
    exact decodeF3_eq_ok_iff.mpr ⟨a, b, dst, h1, h2, h3, hw, rfl⟩
  | saveInput dst => exact decodeF1Destination_eq_ok_iff.mpr ⟨dst, hasDigits_one.mp hs, hw, rfl⟩
  | output src => exact decodeF1Source_eq_ok_iff.mpr ⟨src, hasDigits_one.mp hs, rfl⟩
  | jumpIfTrue cond target =>
    obtain ⟨h1, h2⟩ := hasDigits_two.mp hs
    exact decodeF2_eq_ok_iff.mpr ⟨cond, target, h1, h2, rfl⟩
  | jumpIfFalse cond target =>
    obtain ⟨h1, h2⟩ := hasDigits_two.mp hs
    exact decodeF2_eq_ok_iff.mpr ⟨cond, target, h1, h2, rfl⟩
  | lessThan a b dst =>
    obtain ⟨h1, h2, h3⟩ := hasDigits_three.mp hs
    exact decodeF3_eq_ok_iff.mpr ⟨a, b, dst, h1, h2, h3, hw, rfl⟩
  | equals a b dst =>
    obtain ⟨h1, h2, h3⟩ := hasDigits_three.mp hs
    exact decodeF3_eq_ok_iff.mpr ⟨a, b, dst, h1, h2, h3, hw, rfl⟩
  | adjustRelative a => exact decodeF1Source_eq_ok_iff.mpr ⟨a, hasDigits_one.mp hs, rfl⟩
  | halt => rfl
  | unknownOperation opc =>
    have hu : unknownOpcode opc = true := hw
    simp only [Instr.opcode]
    split
    case h_11 => rfl
    all_goals exact absurd hu (by decide)

theorem decodeDigits_eq_ok_iff : decodeDigits n = .ok i ↔ ReadsAs n i :=
  ⟨readsAs_of_decodeDigits, decodeDigits_of_readsAs⟩

end

/-- The decoder on the whole Int64 range. -/
theorem decode_eq_ok_iff {w : Word} {i : Instr} : decode w = .ok i ↔ 0 ≤ w.toInt ∧ ReadsAs w.toNat i := by
  rcases lt_or_ge w.toInt 0 with hw | hw
  · simp [decode_of_neg hw, not_le.mpr hw]
  · simp [decode_of_nonneg hw, hw, decodeDigits_eq_ok_iff]

theorem toInt_eq_toNat_of_nonneg {w : Word} (h : 0 ≤ w.toInt) : w.toInt = w.toNat := by
  have := w.isLt
  rw [BitVec.toInt_eq_toNat_cond] at h ⊢
  split at h <;> simp_all
  omega

/-- Settles O3: on a non-negative word the integer and the natural remainder agree, and `ReadsAs` is the latter. -/
theorem decodeReadsExactlyItsDigits : Obligations.DecodeReadsExactlyItsDigits := by
  unfold Obligations.DecodeReadsExactlyItsDigits
  intro w i
  rw [decode_eq_ok_iff, readsAs_iff_mod, and_left_comm]
  refine and_congr_right fun _ => and_congr_right fun hw => ?_
  rw [toInt_eq_toNat_of_nonneg hw]
  norm_cast

/-- The encoder's facts of Laws/PerInstr.lean, for every constructor. -/
theorem encode_faithful (i : Instr) : Laws.Canonical.Statement i := by
  cases i with
  | add a b dst => exact Laws.Canonical.add a b dst
  | multiply a b dst => exact Laws.Canonical.multiply a b dst
  | saveInput dst => exact Laws.Canonical.saveInput dst
  | output src => exact Laws.Canonical.output src
  | jumpIfTrue cond target => exact Laws.Canonical.jumpIfTrue cond target
  | jumpIfFalse cond target => exact Laws.Canonical.jumpIfFalse cond target
  | lessThan a b dst => exact Laws.Canonical.lessThan a b dst
  | equals a b dst => exact Laws.Canonical.equals a b dst
  | adjustRelative a => exact Laws.Canonical.adjustRelative a
  | halt => exact Laws.Canonical.halt
  | unknownOperation opc => exact Laws.Canonical.unknownOperation opc

theorem canonical_lt {i : Instr} (hw : i.wellFormed = true) : i.canonical < 10 ^ (i.arity + 2) := by
  have ho := opcode_lt_of_wellFormed hw
  have hm := modeDigits_lt i.modes
  rw [Instr.canonical, Instr.arity, Nat.pow_add]
  omega

/-- Settles O2: the canonical word keeps the canonical number, which has no digit beyond those the decoder reads. -/
theorem encodeThenDecode : Obligations.EncodeThenDecode := by
  unfold Obligations.EncodeThenDecode
  intro i hw
  obtain ⟨hnat, hnonneg, -⟩ := encode_faithful i hw
  refine decode_eq_ok_iff.mpr ⟨hnonneg, readsAs_iff_mod.mpr ⟨hw, ?_⟩⟩
  rw [hnat, Nat.mod_eq_of_lt (canonical_lt hw)]

/-- Settles O1: the decoder run on each word. -/
theorem wordsOfTheSpecDecode : Obligations.WordsOfTheSpecDecode := by
  unfold Obligations.WordsOfTheSpecDecode
  decide

/-! ## The bounds of the canonical words -/

theorem toInt_encode {i : Instr} (hw : i.wellFormed = true) : (encode i).toInt = i.canonical := by
  obtain ⟨hnat, hnonneg, -⟩ := encode_faithful i hw
  rw [toInt_eq_toNat_of_nonneg hnonneg, hnat]

theorem modeDigits_two_le (a b : Mode) : modeDigits [a, b] ≤ 22 :=
  modeDigits_cons_le (modeDigits_cons_le Laws.Canonical.none_le)

theorem modeDigits_three_le (a b c : Mode) : modeDigits [a, b, c] ≤ 222 :=
  modeDigits_cons_le (modeDigits_two_le b c)

/-- The greatest canonical number has opcode 8 and three Relative modes: the greater opcodes have fewer modes. -/
theorem canonical_bounds {i : Instr} (hu : ∀ opc, i ≠ .unknownOperation opc) :
    1 ≤ i.canonical ∧ i.canonical ≤ 22208 := by
  cases i with
  | add a b c | multiply a b c | lessThan a b c | equals a b c =>
    have := modeDigits_three_le a b c
    simp only [Instr.canonical, Instr.opcode, Instr.modes]
    omega
  | jumpIfTrue a b | jumpIfFalse a b =>
    have := modeDigits_two_le a b
    simp only [Instr.canonical, Instr.opcode, Instr.modes]
    omega
  | saveInput a | output a | adjustRelative a =>
    have := modeDigits_cons_le (m := a) Laws.Canonical.none_le
    simp only [Instr.canonical, Instr.opcode, Instr.modes]
    omega
  | halt => decide
  | unknownOperation opc => exact absurd rfl (hu opc)

/-- Settles O5: a canonical word is its canonical number, whose bounds are `canonical_bounds`. -/
theorem canonicalWordsHaveTheirBounds : Obligations.CanonicalWordsHaveTheirBounds := by
  unfold Obligations.CanonicalWordsHaveTheirBounds
  refine ⟨fun i hw hu => ?_, by decide, by decide⟩
  obtain ⟨hlo, hhi⟩ := canonical_bounds hu
  rw [toInt_encode hw]
  omega

end Sys2Proof
end

section
/-! What the decoder rejects, in the order of rule R64: the formats' rejections as a search for the lowest bad operand,
then O4. -/
namespace Sys2Proof

/-- The lowest operand `1 .. n` that satisfies `P`, spelt out for the operand counts there are. -/
theorem exists_lowest_iff {n : Nat} (hn : n ≤ 3) {P Q : Nat → Prop} :
    (∃ k, 1 ≤ k ∧ k ≤ n ∧ P k ∧ (∀ j, 1 ≤ j → j < k → ¬P j) ∧ Q k) ↔
      (1 ≤ n ∧ P 1 ∧ Q 1) ∨ (2 ≤ n ∧ ¬P 1 ∧ P 2 ∧ Q 2) ∨ (3 ≤ n ∧ ¬P 1 ∧ ¬P 2 ∧ P 3 ∧ Q 3) := by
  constructor
  · rintro ⟨k, h1, hk, hP, hlow, hQ⟩
    obtain rfl | rfl | rfl : k = 1 ∨ k = 2 ∨ k = 3 := by omega
    · exact Or.inl ⟨hk, hP, hQ⟩
    · exact Or.inr (Or.inl ⟨hk, hlow 1 (by decide) (by decide), hP, hQ⟩)
    · exact Or.inr (Or.inr ⟨hk, hlow 1 (by decide) (by decide), hlow 2 (by decide) (by decide), hP, hQ⟩)
  · rintro (⟨hk, hP, hQ⟩ | ⟨hk, h1, hP, hQ⟩ | ⟨hk, h1, h2, hP, hQ⟩)
    · exact ⟨1, by decide, hk, hP, fun j _ _ => by omega, hQ⟩
    · refine ⟨2, by decide, hk, hP, fun j _ _ => ?_, hQ⟩
      obtain rfl : j = 1 := by omega
      exact h1
    · refine ⟨3, by decide, hk, hP, fun j _ _ => ?_, hQ⟩
      obtain rfl | rfl : j = 1 ∨ j = 2 := by omega
      exacts [h1, h2]

theorem forall_operand_iff {n : Nat} (hn : n ≤ 3) {P : Nat → Prop} :
    (∀ j, 1 ≤ j → j ≤ n → P j) ↔ (1 ≤ n → P 1) ∧ (2 ≤ n → P 2) ∧ (3 ≤ n → P 3) := by
  constructor
  · exact fun h => ⟨h 1 (by decide), h 2 (by decide), h 3 (by decide)⟩
  · rintro ⟨h1, h2, h3⟩ j hj hjn
    obtain rfl | rfl | rfl : j = 1 ∨ j = 2 ∨ j = 3 := by omega
    exacts [h1 hjn, h2 hjn, h3 hjn]

/-- A non-negative word `n` of opcode `opc` is rejected with `d`: for its lowest illegal mode digit, or with none such
for an Immediate destination. -/
def RejectedWith (n : Nat) (opc : Int) (d : DecodeFault) : Prop :=
  (∃ k, 1 ≤ k ∧ k ≤ Reference.arity opc ∧ 2 < digit (k + 1) n ∧ (∀ j, 1 ≤ j → j < k → ¬2 < digit (j + 1) n) ∧
    d = .illegalMode k (digit (k + 1) n)) ∨
  (∃ k, Reference.isDestination opc k = true ∧ digit (k + 1) n = 1 ∧
    (∀ j, 1 ≤ j → j ≤ Reference.arity opc → digit (j + 1) n ≤ 2) ∧ d = .immediateWriteTarget k)

theorem arity_le_three (opc : Int) : Reference.arity opc ≤ 3 := by
  unfold Reference.arity
  split_ifs <;> decide

/-- The rejections of an operation whose operands are all sources. -/
theorem rejectedWith_iff_of_sources {n : Nat} {opc : Int} {d : DecodeFault}
    (ho : ∀ k, Reference.isDestination opc k = false) : RejectedWith n opc d ↔
      (1 ≤ Reference.arity opc ∧ 3 ≤ digit 2 n ∧ d = .illegalMode 1 (digit 2 n)) ∨
      (2 ≤ Reference.arity opc ∧ digit 2 n ≤ 2 ∧ 3 ≤ digit 3 n ∧ d = .illegalMode 2 (digit 3 n)) ∨
      (3 ≤ Reference.arity opc ∧ digit 2 n ≤ 2 ∧ digit 3 n ≤ 2 ∧ 3 ≤ digit 4 n ∧ d = .illegalMode 3 (digit 4 n)) := by
  unfold RejectedWith
  rw [exists_lowest_iff (arity_le_three opc) (P := fun k => 2 < digit (k + 1) n)
    (Q := fun k => d = .illegalMode k (digit (k + 1) n))]
  simp only [ho, Bool.false_eq_true, false_and, exists_false, or_false, Nat.not_lt]
  exact Iff.rfl

/-- The rejections of an operation whose operand `k` is the destination. -/
theorem rejectedWith_iff_of_destination {n k : Nat} {opc : Int} {d : DecodeFault}
    (ho : ∀ j, Reference.isDestination opc j = true ↔ j = k) : RejectedWith n opc d ↔
      ((1 ≤ Reference.arity opc ∧ 3 ≤ digit 2 n ∧ d = .illegalMode 1 (digit 2 n)) ∨
       (2 ≤ Reference.arity opc ∧ digit 2 n ≤ 2 ∧ 3 ≤ digit 3 n ∧ d = .illegalMode 2 (digit 3 n)) ∨
       (3 ≤ Reference.arity opc ∧ digit 2 n ≤ 2 ∧ digit 3 n ≤ 2 ∧ 3 ≤ digit 4 n ∧ d = .illegalMode 3 (digit 4 n))) ∨
      (digit (k + 1) n = 1 ∧ ((1 ≤ Reference.arity opc → digit 2 n ≤ 2) ∧ (2 ≤ Reference.arity opc → digit 3 n ≤ 2) ∧
        (3 ≤ Reference.arity opc → digit 4 n ≤ 2)) ∧ d = .immediateWriteTarget k) := by
  unfold RejectedWith
  rw [exists_lowest_iff (arity_le_three opc) (P := fun k => 2 < digit (k + 1) n)
    (Q := fun k => d = .illegalMode k (digit (k + 1) n))]
  simp only [ho, exists_eq_left, forall_operand_iff (arity_le_three opc) (P := fun j => digit (j + 1) n ≤ 2),
    Nat.not_lt]
  exact Iff.rfl

section
variable {n : Nat} {opc : Int} {d : DecodeFault}

theorem decodeF3_rejects {mk : Mode → Mode → Mode → Instr} (ha : Reference.arity opc = 3)
    (ho : ∀ j, Reference.isDestination opc j = true ↔ j = 3) :
    decodeF3 n mk = .error d ↔ RejectedWith n opc d := by
  rw [rejectedWith_iff_of_destination ho, decodeF3_eq_error_iff, ha]
  grind

theorem decodeF2_rejects {mk : Mode → Mode → Instr} (ha : Reference.arity opc = 2)
    (ho : ∀ j, Reference.isDestination opc j = false) :
    decodeF2 n mk = .error d ↔ RejectedWith n opc d := by
  rw [rejectedWith_iff_of_sources ho, decodeF2_eq_error_iff, ha]
  simp

theorem decodeF1Source_rejects {mk : Mode → Instr} (ha : Reference.arity opc = 1)
    (ho : ∀ j, Reference.isDestination opc j = false) :
    decodeF1Source n mk = .error d ↔ RejectedWith n opc d := by
  rw [rejectedWith_iff_of_sources ho, decodeF1Source_eq_error_iff, ha]
  simp

theorem decodeF1Destination_rejects {mk : Mode → Instr} (ha : Reference.arity opc = 1)
    (ho : ∀ j, Reference.isDestination opc j = true ↔ j = 1) :
    decodeF1Destination n mk = .error d ↔ RejectedWith n opc d := by
  rw [rejectedWith_iff_of_destination ho, decodeF1Destination_eq_error_iff, ha]
  grind

theorem not_rejectedWith (ha : Reference.arity opc = 0) (ho : ∀ j, Reference.isDestination opc j = false) :
    ¬RejectedWith n opc d := by
  rw [rejectedWith_iff_of_sources ho, ha]
  simp

end

/-- The opcodes that act as Halt have no operand. -/
theorem arity_of_unknownOpcode {opc : Nat} (h : unknownOpcode opc = true) :
    Reference.arity opc = 0 ∧ ∀ j, Reference.isDestination opc j = false := by
  simp only [unknownOpcode, Bool.or_eq_true, beq_iff_eq, Bool.and_eq_true, decide_eq_true_eq] at h
  refine ⟨?_, fun j => ?_⟩
  · rw [Reference.arity, if_neg (by omega), if_neg (by omega), if_neg (by omega)]
  · simp [Reference.isDestination]
    omega

/-- The decoder's rejections of a non-negative word. -/
theorem decodeDigits_eq_error_iff {n : Nat} {d : DecodeFault} :
    decodeDigits n = .error d ↔ RejectedWith n (opcodeOf n) d := by
  rcases decodeDigits_cases n with ⟨ho, hd⟩ | ⟨ho, hd⟩ | ⟨ho, hd⟩ | ⟨ho, hd⟩ | ⟨ho, hd⟩ | ⟨ho, hd⟩ | ⟨ho, hd⟩ |
    ⟨ho, hd⟩ | ⟨ho, hd⟩ | ⟨ho, hd⟩ | ⟨ho, hd⟩ <;> rw [hd]
  · exact decodeF3_rejects (by simp [ho, Reference.arity]) (by simp [ho, Reference.isDestination])
  · exact decodeF3_rejects (by simp [ho, Reference.arity]) (by simp [ho, Reference.isDestination])
  · exact decodeF1Destination_rejects (by simp [ho, Reference.arity]) (by simp [ho, Reference.isDestination])
  · exact decodeF1Source_rejects (by simp [ho, Reference.arity]) (by simp [ho, Reference.isDestination])
  · exact decodeF2_rejects (by simp [ho, Reference.arity]) (by simp [ho, Reference.isDestination])
  · exact decodeF2_rejects (by simp [ho, Reference.arity]) (by simp [ho, Reference.isDestination])
  · exact decodeF3_rejects (by simp [ho, Reference.arity]) (by simp [ho, Reference.isDestination])
  · exact decodeF3_rejects (by simp [ho, Reference.arity]) (by simp [ho, Reference.isDestination])
  · exact decodeF1Source_rejects (by simp [ho, Reference.arity]) (by simp [ho, Reference.isDestination])
  · simpa using not_rejectedWith (by simp [ho, Reference.arity]) (by simp [ho, Reference.isDestination])
  · obtain ⟨ha, hdest⟩ := arity_of_unknownOpcode ho
    simpa using not_rejectedWith ha hdest

/-! ## The digits of the integer are those of the natural number -/

theorem reference_digit {w : Word} (h : 0 ≤ w.toInt) (k : Nat) : Reference.digit k w.toInt = digit k w.toNat := by
  rw [toInt_eq_toNat_of_nonneg h, Reference.digit, digit]
  norm_cast

theorem toInt_mod_hundred {w : Word} (h : 0 ≤ w.toInt) : w.toInt % 100 = opcodeOf w.toNat := by
  rw [toInt_eq_toNat_of_nonneg h, opcodeOf]
  norm_cast

/-- Settles O4: a negative word is rejected at once; on any other the integer's digits are the natural number's, and
`RejectedWith` says what those are rejected with. -/
theorem decodeRejectsInOrder : Obligations.DecodeRejectsInOrder := by
  unfold Obligations.DecodeRejectsInOrder
  intro w d
  rcases lt_or_ge w.toInt 0 with hw | hw
  · simp only [decode_of_neg hw, hw, not_le.mpr hw, Except.error.injEq, true_and, false_and, or_false]
    exact eq_comm
  · rw [decode_of_nonneg hw, decodeDigits_eq_error_iff, toInt_mod_hundred hw, RejectedWith]
    simp only [reference_digit hw, hw, not_lt.mpr hw, false_and, false_or, true_and, Int.toNat_natCast, Nat.not_lt]
    norm_cast

end Sys2Proof
end

section
/-! The resolver's faults (rules R75 to R78, R124): each operand's check as an equation, the fault of a whole operand
list, then O31, O32, O33 and O30. -/
namespace Sys2Proof.Machine

/-! ## One operand -/

theorem operandWord_of_inRange {s : State} {k : Nat} (h : s.InRange (s.pc.toInt + k)) :
    operandWord s k = .ok (rawOperand s k) := operandWord_eq_ok_iff.mpr ⟨h, rfl⟩

theorem operandWord_of_outside {s : State} {k : Nat} (h : ¬s.InRange (s.pc.toInt + k)) :
    operandWord s k = .error ⟨.outOfRangeAccess, k, s.pc.toInt + k⟩ := operandWord_eq_error_iff.mpr ⟨h, rfl⟩

theorem readOperand_of_readable {s : State} {k : Nat} {m : Mode}
    (h : ∀ a ∈ effectiveAddress s m (rawOperand s k), s.InRange a) :
    readOperand s k m (rawOperand s k) = .ok (sourceValue s k m) := readOperand_eq_ok_iff.mpr ⟨h, rfl⟩

theorem readOperand_of_outside {s : State} {k : Nat} {m : Mode} {r : Word} {a : Int}
    (h : effectiveAddress s m r = some a) (ha : ¬s.InRange a) :
    readOperand s k m r = .error ⟨.outOfRangeAccess, k, a⟩ := readOperand_eq_error_iff.mpr ⟨a, h, ha, rfl⟩

theorem writeTarget_of_outside {s : State} {k : Nat} {m : Mode} {r : Word} {a : Int}
    (h : effectiveAddress s m r = some a) (ha : ¬s.InRange a) :
    writeTarget s k m r = .error ⟨.outOfRangeAccess, k, a⟩ :=
  writeTarget_eq_error_iff.mpr (Or.inr ⟨a, h, ha, rfl⟩)

theorem writeTarget_of_immediate {s : State} {k : Nat} {r : Word} :
    writeTarget s k .immediate r = .error ⟨.immediateWriteTarget, k, 1⟩ :=
  writeTarget_eq_error_iff.mpr (Or.inl ⟨rfl, rfl⟩)

/-! ## The fault of an instruction's operands -/

/-- The fault the operands of `i` raise in phases 3 and 4, whatever phase 5 would do with them. -/
def resolutionFault (i : Instr) (s : State) : Option FaultRecord :=
  match i with
  | .add a b dst => errorOf (resolveThree s a b dst)
  | .multiply a b dst => errorOf (resolveThree s a b dst)
  | .saveInput dst => errorOf (resolveDestination s dst)
  | .output src => errorOf (resolveSource s src)
  | .jumpIfTrue cond target => errorOf (resolveTwo s cond target)
  | .jumpIfFalse cond target => errorOf (resolveTwo s cond target)
  | .lessThan a b dst => errorOf (resolveThree s a b dst)
  | .equals a b dst => errorOf (resolveThree s a b dst)
  | .adjustRelative a => errorOf (resolveSource s a)
  | .halt => none
  | .unknownOperation _ => none

theorem storeFault_of_resolveThree {s : State} {m1 m2 m3 : Mode} {f : Word → Word → Except FaultRecord Word}
    {e : FaultRecord} (h : errorOf (resolveThree s m1 m2 m3) = some e) : storeFault s m1 m2 m3 f = some e := by
  simp only [storeFault, errorOf_eq_some_iff.mp h]

/-- Operands fault before the arithmetic does. -/
theorem faultOf_of_resolutionFault {i : Instr} {s : State} {f : FaultRecord} (h : resolutionFault i s = some f) :
    faultOf i s = some f := by
  cases i with
  | add a b dst | multiply a b dst | lessThan a b dst | equals a b dst => exact storeFault_of_resolveThree h
  | saveInput dst => exact h
  | output src => exact h
  | jumpIfTrue cond target => exact h
  | jumpIfFalse cond target => exact h
  | adjustRelative a => exact errorOf_eq_some_iff.mpr (bind_eq_error_iff.mpr (Or.inl (errorOf_eq_some_iff.mp h)))
  | halt => cases h
  | unknownOperation opc => cases h

theorem faultTaken_takeFault (s : State) (f : FaultRecord) : FaultTaken s (s.takeFault f) f := rfl

/-- A fault of an instruction, as the statements say it. -/
theorem exec_faultTaken {i : Instr} {s : State} {f : FaultRecord} (h : faultOf i s = some f) :
    ∃ t, exec i s = .next t ∧ FaultTaken s t f := ⟨_, exec_of_fault h, faultTaken_takeFault s f⟩

/-! ## An operand word outside memory -/

section
variable {s : State} {k : Nat}

/-- Operand word `k` is the lowest one outside memory. -/
def LowestWordOutside (s : State) (k : Nat) : Prop :=
  1 ≤ k ∧ ¬s.InRange (s.pc.toInt + k) ∧ ∀ j : Nat, 1 ≤ j → j < k → s.InRange (s.pc.toInt + j)

theorem resolveSource_of_word (m1 : Mode) (hk : k ≤ 1) (h : LowestWordOutside s k) :
    resolveSource s m1 = .error ⟨.outOfRangeAccess, k, s.pc.toInt + k⟩ := by
  obtain ⟨h1, hout, -⟩ := h
  obtain rfl : k = 1 := by omega
  simp [resolveSource, operandWord_of_outside hout]

theorem resolveDestination_of_word (m1 : Mode) (hk : k ≤ 1) (h : LowestWordOutside s k) :
    resolveDestination s m1 = .error ⟨.outOfRangeAccess, k, s.pc.toInt + k⟩ := by
  obtain ⟨h1, hout, -⟩ := h
  obtain rfl : k = 1 := by omega
  simp [resolveDestination, operandWord_of_outside hout]

theorem resolveTwo_of_word (m1 m2 : Mode) (hk : k ≤ 2) (h : LowestWordOutside s k) :
    resolveTwo s m1 m2 = .error ⟨.outOfRangeAccess, k, s.pc.toInt + k⟩ := by
  obtain ⟨h1, hout, hin⟩ := h
  obtain rfl | rfl : k = 1 ∨ k = 2 := by omega
  · simp [resolveTwo, operandWord_of_outside hout]
  · simp [resolveTwo, operandWord_of_inRange (hin 1 (by decide) (by decide)), operandWord_of_outside hout]

theorem resolveThree_of_word (m1 m2 m3 : Mode) (hk : k ≤ 3) (h : LowestWordOutside s k) :
    resolveThree s m1 m2 m3 = .error ⟨.outOfRangeAccess, k, s.pc.toInt + k⟩ := by
  obtain ⟨h1, hout, hin⟩ := h
  obtain rfl | rfl | rfl : k = 1 ∨ k = 2 ∨ k = 3 := by omega
  · simp [resolveThree, operandWord_of_outside hout]
  · simp [resolveThree, operandWord_of_inRange (hin 1 (by decide) (by decide)), operandWord_of_outside hout]
  · simp [resolveThree, operandWord_of_inRange (hin 1 (by decide) (by decide)),
      operandWord_of_inRange (hin 2 (by decide) (by decide)), operandWord_of_outside hout]

theorem resolutionFault_of_word {i : Instr} (hk : k ≤ i.arity) (h : LowestWordOutside s k) :
    resolutionFault i s = some ⟨.outOfRangeAccess, k, s.pc.toInt + k⟩ := by
  cases i with
  | add a b dst | multiply a b dst | lessThan a b dst | equals a b dst =>
    exact errorOf_eq_some_iff.mpr (resolveThree_of_word a b dst hk h)
  | saveInput dst => exact errorOf_eq_some_iff.mpr (resolveDestination_of_word dst hk h)
  | output a | adjustRelative a => exact errorOf_eq_some_iff.mpr (resolveSource_of_word a hk h)
  | jumpIfTrue a b | jumpIfFalse a b => exact errorOf_eq_some_iff.mpr (resolveTwo_of_word a b hk h)
  | halt | unknownOperation opc => exact absurd (h.1.trans hk) (Nat.not_succ_le_zero 0)

end

/-- Settles O31: the operand words are fetched lowest first, before anything else. -/
theorem operandWordOutsideMemoryFaults : Obligations.OperandWordOutsideMemoryFaults := by
  unfold Obligations.OperandWordOutsideMemoryFaults
  intro s i k h1 hk hout hin
  exact exec_faultTaken (faultOf_of_resolutionFault (resolutionFault_of_word hk ⟨h1, hout, hin⟩))

/-! ## An operand address outside memory -/

section
variable {s : State} {k : Nat} {m : Mode} {a : Int}

/-- Operand `k` of an operand list names a cell outside memory and no lower one does. -/
structure LowestAddressOutside (s : State) (modes : List Mode) (k : Nat) (m : Mode) (a : Int) : Prop where
  pos : 1 ≤ k
  mode : modes[k - 1]? = some m
  address : effectiveAddress s m (rawOperand s k) = some a
  outside : ¬s.InRange a
  lower : ∀ (j : Nat) (n : Mode) (b : Int), 1 ≤ j → j < k → modes[j - 1]? = some n →
    effectiveAddress s n (rawOperand s j) = some b → s.InRange b

theorem LowestAddressOutside.read_lower {modes : List Mode} (h : LowestAddressOutside s modes k m a) {j : Nat}
    {n : Mode} (hj : 1 ≤ j) (hjk : j < k) (hn : modes[j - 1]? = some n) :
    readOperand s j n (rawOperand s j) = .ok (sourceValue s j n) :=
  readOperand_of_readable fun b hb => h.lower j n b hj hjk hn hb

theorem LowestAddressOutside.le_length {modes : List Mode} (h : LowestAddressOutside s modes k m a) :
    k ≤ modes.length := by
  have := (List.getElem?_eq_some_iff.mp h.mode).1
  omega

theorem resolveSource_of_address {m1 : Mode} (hw : ∀ j : Nat, 1 ≤ j → j ≤ 1 → s.InRange (s.pc.toInt + j))
    (h : LowestAddressOutside s [m1] k m a) : resolveSource s m1 = .error ⟨.outOfRangeAccess, k, a⟩ := by
  obtain rfl : k = 1 := le_antisymm h.le_length h.pos
  obtain rfl : m1 = m := Option.some.inj h.mode
  simp [resolveSource, operandWord_of_inRange (hw 1 (by decide) (by decide)),
    readOperand_of_outside h.address h.outside]

theorem resolveDestination_of_address {m1 : Mode} (hw : ∀ j : Nat, 1 ≤ j → j ≤ 1 → s.InRange (s.pc.toInt + j))
    (h : LowestAddressOutside s [m1] k m a) : resolveDestination s m1 = .error ⟨.outOfRangeAccess, k, a⟩ := by
  obtain rfl : k = 1 := le_antisymm h.le_length h.pos
  obtain rfl : m1 = m := Option.some.inj h.mode
  simp [resolveDestination, operandWord_of_inRange (hw 1 (by decide) (by decide)),
    writeTarget_of_outside h.address h.outside]

theorem resolveTwo_of_address {m1 m2 : Mode} (hw : ∀ j : Nat, 1 ≤ j → j ≤ 2 → s.InRange (s.pc.toInt + j))
    (h : LowestAddressOutside s [m1, m2] k m a) : resolveTwo s m1 m2 = .error ⟨.outOfRangeAccess, k, a⟩ := by
  have hpos := h.pos
  have hle : k ≤ 2 := h.le_length
  simp only [resolveTwo, operandWord_of_inRange (hw 1 (by decide) (by decide)),
    operandWord_of_inRange (hw 2 (by decide) (by decide)), bind_ok]
  obtain rfl | rfl : k = 1 ∨ k = 2 := by omega
  · obtain rfl : m1 = m := Option.some.inj h.mode
    simp [readOperand_of_outside h.address h.outside]
  · obtain rfl : m2 = m := Option.some.inj h.mode
    simp [h.read_lower (j := 1) (n := m1) (by decide) (by decide) rfl, readOperand_of_outside h.address h.outside]

theorem resolveThree_of_address {m1 m2 m3 : Mode} (hw : ∀ j : Nat, 1 ≤ j → j ≤ 3 → s.InRange (s.pc.toInt + j))
    (h : LowestAddressOutside s [m1, m2, m3] k m a) :
    resolveThree s m1 m2 m3 = .error ⟨.outOfRangeAccess, k, a⟩ := by
  have hpos := h.pos
  have hle : k ≤ 3 := h.le_length
  simp only [resolveThree, operandWord_of_inRange (hw 1 (by decide) (by decide)),
    operandWord_of_inRange (hw 2 (by decide) (by decide)), operandWord_of_inRange (hw 3 (by decide) (by decide)),
    bind_ok]
  obtain rfl | rfl | rfl : k = 1 ∨ k = 2 ∨ k = 3 := by omega
  · obtain rfl : m1 = m := Option.some.inj h.mode
    simp [readOperand_of_outside h.address h.outside]
  · obtain rfl : m2 = m := Option.some.inj h.mode
    simp [h.read_lower (j := 1) (n := m1) (by decide) (by decide) rfl, readOperand_of_outside h.address h.outside]
  · obtain rfl : m3 = m := Option.some.inj h.mode
    simp [h.read_lower (j := 1) (n := m1) (by decide) (by decide) rfl,
      h.read_lower (j := 2) (n := m2) (by decide) (by decide) rfl, writeTarget_of_outside h.address h.outside]

theorem resolutionFault_of_address {i : Instr} (hw : ∀ j : Nat, 1 ≤ j → j ≤ i.arity → s.InRange (s.pc.toInt + j))
    (h : LowestAddressOutside s i.modes k m a) : resolutionFault i s = some ⟨.outOfRangeAccess, k, a⟩ := by
  cases i with
  | add a b dst | multiply a b dst | lessThan a b dst | equals a b dst =>
    exact errorOf_eq_some_iff.mpr (resolveThree_of_address hw h)
  | saveInput dst => exact errorOf_eq_some_iff.mpr (resolveDestination_of_address hw h)
  | output a | adjustRelative a => exact errorOf_eq_some_iff.mpr (resolveSource_of_address hw h)
  | jumpIfTrue a b | jumpIfFalse a b => exact errorOf_eq_some_iff.mpr (resolveTwo_of_address hw h)
  | halt | unknownOperation opc => exact absurd (h.pos.trans h.le_length) (Nat.not_succ_le_zero 0)

end

/-- Settles O32: with all words fetched the operands are resolved lowest first, before phase 5. -/
theorem operandAddressOutsideMemoryFaults : Obligations.OperandAddressOutsideMemoryFaults := by
  unfold Obligations.OperandAddressOutsideMemoryFaults
  intro s i k m a hw hk hm ha hout hlow
  exact exec_faultTaken (faultOf_of_resolutionFault (resolutionFault_of_address hw ⟨hk, hm, ha, hout, hlow⟩))

/-! ## An Immediate destination -/

theorem resolveThree_of_immediate {s : State} {m1 m2 : Mode} (h1 : SourceReadable s 1 m1)
    (h2 : SourceReadable s 2 m2) (h3 : s.InRange (s.pc.toInt + 3)) :
    resolveThree s m1 m2 .immediate = .error ⟨.immediateWriteTarget, 3, 1⟩ := by
  simp [resolveThree, operandWord_of_inRange h1.1, operandWord_of_inRange h2.1, operandWord_of_inRange (k := 3) h3,
    readOperand_of_readable h1.2, readOperand_of_readable h2.2, writeTarget_of_immediate]

/-- Settles O33: the destination is resolved last, and an Immediate one names no cell (log entry 7). -/
theorem immediateDestinationFaults : Obligations.ImmediateDestinationFaults := by
  unfold Obligations.ImmediateDestinationFaults
  refine ⟨fun s i m1 m2 hi h1 h2 h3 => exec_faultTaken (faultOf_of_resolutionFault ?_), fun s h1 =>
    exec_faultTaken (faultOf_of_resolutionFault ?_)⟩
  · have hr := errorOf_eq_some_iff.mpr (resolveThree_of_immediate h1 h2 h3)
    rcases hi with rfl | rfl | rfl | rfl <;> exact hr
  · refine errorOf_eq_some_iff.mpr ?_
    simp [resolveDestination, operandWord_of_inRange (k := 1) h1, writeTarget_of_immediate]

/-! ## Overflow -/

theorem storeFault_of_result {s : State} {m1 m2 m3 : Mode} {a : Int} {f : Word → Word → Except FaultRecord Word}
    {e : FaultRecord} (h1 : SourceReadable s 1 m1) (h2 : SourceReadable s 2 m2) (h3 : DestinationAt s 3 m3 a)
    (he : f (sourceValue s 1 m1) (sourceValue s 2 m2) = .error e) : storeFault s m1 m2 m3 f = some e := by
  simp only [storeFault, resolveThree_eq_ok_iff.mpr ⟨h1, h2, ⟨a, h3, rfl⟩, rfl, rfl⟩, he, errorOf]

/-- Settles O30: the operands resolve, and the exact result is refused by `narrow`. -/
theorem overflowFaultsAndStoresNothing : Obligations.OverflowFaultsAndStoresNothing := by
  unfold Obligations.OverflowFaultsAndStoresNothing
  refine ⟨fun s m1 m2 m3 a h1 h2 h3 hx => ?_, fun s m1 m2 m3 a h1 h2 h3 hx => ?_, fun s m1 h1 hx => ?_⟩ <;>
    have hn := narrow_eq_error_iff.mpr ⟨hx, rfl⟩ <;> refine exec_faultTaken ?_
  · exact storeFault_of_result (f := fun v1 v2 => narrow (v1.toInt + v2.toInt)) h1 h2 h3 hn
  · exact storeFault_of_result (f := fun v1 v2 => narrow (v1.toInt * v2.toInt)) h1 h2 h3 hn
  · exact errorOf_eq_some_iff.mpr (bind_eq_error_iff.mpr (Or.inr ⟨_, resolveSource_eq_ok_iff.mpr ⟨h1, rfl⟩, hn⟩))

end Sys2Proof.Machine
end

section
/-! Where each instruction completes (rules R90 to R100): its next state from Laws/Exec.lean, and the frame read off it:
O19 to O28 and O34. -/
namespace Sys2Proof.Machine

/-! ## Instructions that store -/

/-- Settles O19: the sum fits, so the word stored is the sum. -/
theorem addStoresTheExactSum : Obligations.AddStoresTheExactSum := by
  unfold Obligations.AddStoresTheExactSum
  intro s m1 m2 m3 a hwf hs h1 h2 h3 hf
  exact ⟨_, exec_add h1 h2 h3 hf, storesAndAdvances_of_write hwf hs (by decide) h3.1 (toInt_ofInt_of_fits hf)⟩

/-- Settles O20: the product fits, so the word stored is the product. -/
theorem multiplyStoresTheExactProduct : Obligations.MultiplyStoresTheExactProduct := by
  unfold Obligations.MultiplyStoresTheExactProduct
  intro s m1 m2 m3 a hwf hs h1 h2 h3 hf
  exact ⟨_, exec_multiply h1 h2 h3 hf, storesAndAdvances_of_write hwf hs (by decide) h3.1 (toInt_ofInt_of_fits hf)⟩

theorem toInt_truthValue_decide (p : Prop) [Decidable p] : (truthValue (decide p)).toInt = if p then 1 else 0 := by
  simp [toInt_truthValue]

/-- Settles O21: the truth value stored is 1 or 0 by the order of the integers. -/
theorem lessThanStoresTheSignedComparison : Obligations.LessThanStoresTheSignedComparison := by
  unfold Obligations.LessThanStoresTheSignedComparison
  intro s m1 m2 m3 a hwf hs h1 h2 h3
  exact ⟨_, exec_lessThan h1 h2 h3,
    storesAndAdvances_of_write hwf hs (by decide) h3.1 (toInt_truthValue_decide _)⟩

/-- Settles O22: words are equal exactly when their integers are. -/
theorem equalsStoresTheComparison : Obligations.EqualsStoresTheComparison := by
  unfold Obligations.EqualsStoresTheComparison
  intro s m1 m2 m3 a hwf hs h1 h2 h3
  refine ⟨_, exec_equals h1 h2 h3, storesAndAdvances_of_write hwf hs (by decide) h3.1 ?_⟩
  simp only [toInt_truthValue_decide, BitVec.toInt_inj]

/-- Settles O23: the destination receives the input value of rule R92, and the explicit input is used up. -/
theorem saveInputStoresTheInput : Obligations.SaveInputStoresTheInput := by
  unfold Obligations.SaveInputStoresTheInput
  intro s m1 a hwf hs h1
  exact ⟨_, exec_saveInput h1, rfl, Memory.read_write_same hwf _ _, fun b hb => Memory.read_write_other _ _ hb,
    toInt_pc_advance (s := s) (n := 2) hs (by decide) h1.1, rfl⟩

/-! ## Instructions that do not store -/

/-- Settles O24: `pc` moves first, then the call ends with the value read. -/
theorem outputYieldsAndSuspends : Obligations.OutputYieldsAndSuspends := by
  unfold Obligations.OutputYieldsAndSuspends
  intro s m1 hs h1
  exact ⟨_, exec_output h1, toInt_pc_advance (n := 2) hs (by decide) h1.1, rfl⟩

/-- `pc` after either jump: the target, or 3 further. -/
theorem toInt_pc_of_jump {s : State} {m2 : Mode} (hs : s.memSize ≤ Config.maxMemSize) (h2 : SourceReadable s 2 m2)
    (p : Prop) [Decidable p] :
    (if p then s.jump (sourceValue s 2 m2) else s.advance 3).pc.toInt =
      if p then (sourceValue s 2 m2).toInt else s.pc.toInt + 3 := by
  split
  · rfl
  · exact toInt_pc_advance (n := 3) hs (by decide) h2.1

/-- A jump changes `pc` alone. -/
theorem frame_of_jump {s : State} {v : Word} (p : Prop) [Decidable p] :
    (if p then s.jump v else s.advance 3) = { s with pc := (if p then s.jump v else s.advance 3).pc } := by
  split <;> rfl

/-- Settles O25: the jump is taken when the condition is not 0. -/
theorem jumpIfTrueJumpsOrAdvances : Obligations.JumpIfTrueJumpsOrAdvances := by
  unfold Obligations.JumpIfTrueJumpsOrAdvances
  intro s m1 m2 hs h1 h2
  refine ⟨_, (exec_jumpIfTrue h1 h2).trans ?_, toInt_pc_of_jump hs h2 _, frame_of_jump _⟩
  rw [ite_not]

/-- Settles O26: the jump is taken when the condition is 0. -/
theorem jumpIfFalseJumpsOrAdvances : Obligations.JumpIfFalseJumpsOrAdvances := by
  unfold Obligations.JumpIfFalseJumpsOrAdvances
  intro s m1 m2 hs h1 h2
  exact ⟨_, exec_jumpIfFalse h1 h2, toInt_pc_of_jump hs h2 _, frame_of_jump _⟩

/-- Settles O34: the two jumps test the same value for opposite answers. -/
theorem jumpsAreComplements : Obligations.JumpsAreComplements := by
  unfold Obligations.JumpsAreComplements
  intro s m1 m2 h1 h2
  refine ⟨_, _, exec_jumpIfTrue h1 h2, exec_jumpIfFalse h1 h2, ?_⟩
  by_cases h : (sourceValue s 1 m1).toInt = 0
  · simp only [if_pos h]
    exact Or.inr ⟨rfl, rfl⟩
  · simp only [if_neg h]
    exact Or.inl ⟨rfl, rfl⟩

/-- Settles O27: the operand is read before the base moves. -/
theorem adjustRelativeMovesTheBase : Obligations.AdjustRelativeMovesTheBase := by
  unfold Obligations.AdjustRelativeMovesTheBase
  intro s m1 hs h1 hf
  exact ⟨_, exec_adjustRelative h1 hf, toInt_ofInt_of_fits hf,
    toInt_pc_advance (s := s) (n := 2) hs (by decide) h1.1, rfl⟩

/-- Settles O28: both stop the machine, whatever its state. -/
theorem haltAndUnknownOperationStop : Obligations.HaltAndUnknownOperationStop := by
  unfold Obligations.HaltAndUnknownOperationStop
  exact fun _ _ => ⟨rfl, rfl⟩

end Sys2Proof.Machine
end

section
/-! One step as an equation, inside a call (rules R71, R72, R79, R106) and between calls (rules R108, R137, R140):
O11 to O13, O29, O6, O18, O16, O17 and O44. -/
namespace Sys2Proof.Machine

/-! ## Inside a call -/

section
variable {s : State}

theorem step_of_decoded {i : Instr} (hc : s.inCall = true) (hr : s.fsm = .running) (hpc : s.InRange s.pc.toInt)
    (hd : decode (s.mem.read s.pc.toInt.toNat) = .ok i) : step s = exec i s := by
  rw [step_in_call hc hr, execOne, fetchDecode_eq_ok_iff.mpr ⟨hpc, hd⟩]

theorem step_of_fetch_fault {f : FaultRecord} (hc : s.inCall = true) (hr : s.fsm = .running)
    (hf : fetchDecode s = .error f) : ∃ t, step s = .next t ∧ FaultTaken s t f := by
  refine ⟨s.takeFault f, ?_, faultTaken_takeFault s f⟩
  rw [step_in_call hc hr, execOne, hf]

theorem step_of_rejected {d : DecodeFault} (hc : s.inCall = true) (hr : s.fsm = .running)
    (hpc : s.InRange s.pc.toInt) (hd : decode (s.mem.read s.pc.toInt.toNat) = .error d) :
    ∃ t, step s = .next t ∧ FaultTaken s t (recordOfDecodeFault d) :=
  step_of_fetch_fault hc hr (fetchDecode_eq_error_iff.mpr (Or.inr ⟨hpc, d, hd, rfl⟩))

end

/-- Settles O11: fetch and decode answer `i`, and `execOne` goes on with `exec`. -/
theorem stepRunsTheDecodedInstruction : Obligations.StepRunsTheDecodedInstruction := by
  unfold Obligations.StepRunsTheDecodedInstruction
  exact fun s i => step_of_decoded

/-- Settles O12: the fetch is the access of operand 0. -/
theorem fetchOutsideMemoryFaults : Obligations.FetchOutsideMemoryFaults := by
  unfold Obligations.FetchOutsideMemoryFaults
  exact fun s hc hr hpc => step_of_fetch_fault hc hr (fetchDecode_eq_error_iff.mpr (Or.inl ⟨hpc, rfl⟩))

/-- Settles O13: each cause has its record in `recordOfDecodeFault`. -/
theorem rejectedWordFaults : Obligations.RejectedWordFaults := by
  unfold Obligations.RejectedWordFaults
  intro s d hc hr hpc hd
  obtain ⟨t, ht, hf⟩ := step_of_rejected hc hr hpc hd
  refine ⟨t, ht, ?_, ?_, ?_⟩
  · rintro w rfl
    exact hf
  · rintro k n rfl
    exact hf
  · rintro k rfl
    exact hf

theorem arity_of_halting {i : Instr} (h : i = .halt ∨ ∃ opc, i = .unknownOperation opc) : i.arity = 0 := by
  obtain rfl | ⟨opc, rfl⟩ := h <;> rfl

theorem exec_of_halting {i : Instr} (h : i = .halt ∨ ∃ opc, i = .unknownOperation opc) (s : State) :
    exec i s = .next s.stop := by
  obtain rfl | ⟨opc, rfl⟩ := h <;> rfl

/-- Settles O29: an instruction without operands is read from the two opcode digits alone (`ReadsAs`). -/
theorem haltWordStopsTheCall : Obligations.HaltWordStopsTheCall := by
  unfold Obligations.HaltWordStopsTheCall
  intro s i hc hr hpc hd hi
  have harity := arity_of_halting hi
  obtain ⟨hnonneg, hread⟩ := decode_eq_ok_iff.mp hd
  refine ⟨harity, fun w hw hmod => decode_eq_ok_iff.mpr ⟨hw, ?_⟩, s.stop, ?_, rfl, rfl, rfl⟩
  · obtain ⟨hwf, hopc, -⟩ := hread
    rw [toInt_mod_hundred hw, toInt_mod_hundred hnonneg, Int.natCast_inj] at hmod
    refine ⟨hwf, hmod.trans hopc, ?_⟩
    rw [List.length_eq_zero_iff.mp harity]
    trivial
  · rw [step_of_decoded hc hr hpc hd, exec_of_halting hi]

/-! ## Between calls -/

/-- Settles O18: with no request `serveCaller` answers the state itself. -/
theorem idleMachineWaits : Obligations.IdleMachineWaits := by
  unfold Obligations.IdleMachineWaits
  intro s hc hq
  rw [step_idle hc, serveCaller, hq]

section
variable {s : State} {rest : List Request}

theorem step_of_createRequest {image : List Word} (hc : s.inCall = false) (hq : s.requests = .create image :: rest)
    (hl : image.length ≤ Config.maxMemSize) :
    step s = .next { State.create image with requests := rest, results := s.results } := by
  rw [step_idle hc, serveCaller, hq]
  exact if_pos hl

theorem step_of_stepRequest_halted {x : Option Word} {y : Word} (hc : s.inCall = false) (hr : s.fsm = .halted)
    (hq : s.requests = .step x y :: rest) : step s = .next (State.answer { s with requests := rest } .noValue) := by
  rw [step_idle hc, serveCaller, hq]
  simp only [beginCall, hr]

theorem step_of_stepRequest_faulted {x : Option Word} {y : Word} {f : FaultRecord} (hc : s.inCall = false)
    (hr : s.fsm = .faulted) (hf : s.flt = some f) (hq : s.requests = .step x y :: rest) :
    step s = .next (State.answer { s with requests := rest } (.fault f)) := by
  rw [step_idle hc, serveCaller, hq]
  simp only [beginCall, hr, hf]

end

/-- Settles O6: cell `i` of an image made at base 0 is its element `i`. -/
theorem creationBuildsTheMachine : Obligations.CreationBuildsTheMachine := by
  unfold Obligations.CreationBuildsTheMachine
  intro s image rest hc hq hl
  refine ⟨_, step_of_createRequest hc hq hl, rfl, fun i h => ?_, rfl, rfl, rfl, rfl, rfl, rfl, rfl, rfl⟩
  have hread := Memory.read_ofCells 0 i image
  rw [Nat.zero_add, List.getD_eq_getElem _ _ h] at hread
  exact hread

/-! ## Calls on a stopped machine -/

/-- A machine that answers each call with `r` and changes nothing else does so any number of times. -/
theorem run_of_answering {r : CallResult} {s : State} {calls : List Request} (hcalls : ∀ q ∈ calls, q.isStep = true)
    (hstep : ∀ x y rest res, step { s with requests := .step x y :: rest, results := res } =
      .next { s with requests := rest, results := res ++ [r] }) (res : List CallResult) :
    Sys2Proof.core.run calls.length { s with requests := calls, results := res } =
      .next { s with requests := [], results := res ++ List.replicate calls.length r } := by
  induction calls generalizing res with
  | nil => simp [run_zero]
  | cons q rest ih =>
    obtain ⟨hq, hrest⟩ := List.forall_mem_cons.mp hcalls
    cases q with
    | create image => cases hq
    | step x y =>
      rw [List.length_cons, run_succ (hstep x y rest res), ih hrest, List.replicate_succ, List.append_assoc,
        List.singleton_append]

/-- Settles O16: each call on a Halted machine is answered None. -/
theorem haltedMachineAnswersNoValue : Obligations.HaltedMachineAnswersNoValue := by
  unfold Obligations.HaltedMachineAnswersNoValue
  rintro s calls hc hr rfl hcalls
  exact run_of_answering (s := s) hcalls (fun x y rest res => step_of_stepRequest_halted hc hr rfl) s.results

/-- Settles O17: each call on a Faulted machine is answered with the record, which stays. -/
theorem faultedMachineRepeatsItsFault : Obligations.FaultedMachineRepeatsItsFault := by
  unfold Obligations.FaultedMachineRepeatsItsFault
  rintro s f calls hc hr hf rfl hcalls
  exact run_of_answering (s := s) hcalls (fun x y rest res => step_of_stepRequest_faulted hc hr hf rfl) s.results

/-! ## A jump to itself -/

/-- A state that steps to itself stays for ever. -/
theorem run_of_fixed {s : State} (h : step s = .next s) (n : Nat) : Sys2Proof.core.run n s = .next s := by
  induction n with
  | zero => exact run_zero s
  | succ n ih => rw [run_succ h, ih]

/-- Settles O44: a taken jump whose target is `pc` gives the state itself. -/
theorem jumpToItselfNeverReturns : Obligations.JumpToItselfNeverReturns := by
  unfold Obligations.JumpToItselfNeverReturns
  intro s m1 m2 n hc hr hpc h1 h2 htarget hjump
  have hself : s.jump (sourceValue s 2 m2) = s := by rw [htarget]; rfl
  refine run_of_fixed ?_ n
  obtain ⟨hd, hcond⟩ | ⟨hd, hcond⟩ := hjump
  · rw [step_of_decoded hc hr hpc hd, exec_jumpIfTrue h1 h2, if_neg hcond, hself]
  · rw [step_of_decoded hc hr hpc hd, exec_jumpIfFalse h1 h2, if_pos hcond, hself]

end Sys2Proof.Machine
end

section
/-! What a step inside a call can leave behind, by how it ends (rules R103, R105 to R107), then the rules about every
transition: O36 to O43. -/
namespace Sys2Proof.Machine

/-- `t` is `s` in the same call: only memory, `pc`, `rb` and `xv` may differ. -/
structure KeepsCall (s t : State) : Prop where
  memSize : t.memSize = s.memSize
  fsm : t.fsm = s.fsm
  xin : t.xin = s.xin
  sig : t.sig = s.sig
  flt : t.flt = s.flt
  inCall : t.inCall = s.inCall
  requests : t.requests = s.requests
  results : t.results = s.results

theorem keepsCall_of_frame {s t : State} (h : t = { s with mem := t.mem, pc := t.pc, rb := t.rb, xv := t.xv }) :
    KeepsCall s t := by
  rw [h]
  exact ⟨rfl, rfl, rfl, rfl, rfl, rfl, rfl, rfl⟩

/-- An instruction faults, goes on, suspends or stops; the four differ in the run state they leave. -/
inductive InCallStep (s t : State) : Prop where
  | faults (f : FaultRecord) (hf : instructionFault s = some f) (ht : t = s.takeFault f)
  | goesOn (i : Instr) (hi : fetchDecode s = .ok i) (he : Effect i s t) (hhalt : actsAsHalt i = false)
      (hout : ∀ m, i ≠ .output m) (hkeep : KeepsCall s t)
  | suspends (m : Mode) (hi : fetchDecode s = .ok (.output m)) (ht : t = (s.advance 2).suspend (sourceValue s 1 m))
  | stops (i : Instr) (hi : fetchDecode s = .ok i) (hhalt : actsAsHalt i = true) (ht : t = s.stop)

theorem step_inCall_cases {s t : State} (hc : s.inCall = true) (h : step s = .next t) :
    s.fsm = .running ∧ InCallStep s t := by
  obtain ⟨hidle, -⟩ | ⟨-, hr, ⟨f, hf, ht⟩ | ⟨-, i, hi, he⟩⟩ := step_cases h
  · simp [hc] at hidle
  · exact ⟨hr, .faults f hf ht⟩
  · refine ⟨hr, ?_⟩
    obtain ⟨hhalt, hout, ht⟩ | ⟨m, rfl, ht⟩ | ⟨hhalt, ht⟩ := effect_cases he
    · exact .goesOn i hi he hhalt hout (keepsCall_of_frame ht)
    · exact .suspends m hi ht
    · exact .stops i hi hhalt ht

/-- The two kinds of step, each with its inversion. -/
theorem step_cases_by_call {s t : State} (h : step s = .next t) :
    (s.inCall = false ∧ serveCaller s = .next t) ∨ (s.inCall = true ∧ s.fsm = .running ∧ InCallStep s t) := by
  cases hc : s.inCall with
  | false => exact Or.inl ⟨rfl, step_idle hc ▸ h⟩
  | true => exact Or.inr ⟨rfl, step_inCall_cases hc h⟩

/-! ## The registers and memory -/

/-- Settles O36: in a call only an AdjustRelative moves `rb` (`effect_rb`), outside one only `create` does. -/
theorem onlyAdjustRelativeMovesTheBase : Obligations.OnlyAdjustRelativeMovesTheBase := by
  unfold Obligations.OnlyAdjustRelativeMovesTheBase
  intro s t hstep hne
  obtain ⟨hc, hserve⟩ | ⟨hc, -, hcase⟩ := step_cases_by_call hstep
  · obtain ⟨-, rfl⟩ | ⟨image, rest, hq, -⟩ | ⟨x, y, rest, -, -, rfl⟩ | ⟨x, y, rest, -, -, rfl⟩ |
      ⟨x, y, rest, f, -, -, -, rfl⟩ := serveCaller_cases hserve
    · exact absurd rfl hne
    · exact Or.inr ⟨hc, image, rest, hq⟩
    · exact absurd rfl hne
    · exact absurd rfl hne
    · exact absurd rfl hne
  · cases hcase with
    | faults f hf ht => exact absurd (ht ▸ rfl) hne
    | goesOn i hi he hhalt hout hkeep =>
      obtain hrb | ⟨m, rfl⟩ := effect_rb he
      · exact absurd hrb hne
      · exact Or.inl ⟨hc, m, (fetchDecode_eq_ok_iff.mp hi).2⟩
    | suspends m hi ht => exact absurd (ht ▸ rfl) hne
    | stops i hi hhalt ht => exact absurd (ht ▸ rfl) hne

/-- Settles O37: in a call an effect writes at most its destination's cell (`effect_mem`), outside one only `create`
makes new memory. -/
theorem onlyStoringInstructionsChangeMemory : Obligations.OnlyStoringInstructionsChangeMemory := by
  unfold Obligations.OnlyStoringInstructionsChangeMemory
  intro s t hstep
  obtain ⟨hc, hserve⟩ | ⟨hc, -, hcase⟩ := step_cases_by_call hstep
  · obtain ⟨-, rfl⟩ | ⟨image, rest, hq, -⟩ | ⟨x, y, rest, -, -, rfl⟩ | ⟨x, y, rest, -, -, rfl⟩ |
      ⟨x, y, rest, f, -, -, -, rfl⟩ := serveCaller_cases hserve
    · exact Or.inr ⟨rfl, Or.inl rfl⟩
    · exact Or.inl ⟨hc, image, rest, hq⟩
    · exact Or.inr ⟨rfl, Or.inl rfl⟩
    · exact Or.inr ⟨rfl, Or.inl rfl⟩
    · exact Or.inr ⟨rfl, Or.inl rfl⟩
  · refine Or.inr ?_
    cases hcase with
    | faults f hf ht => exact ht ▸ ⟨rfl, Or.inl rfl⟩
    | goesOn i hi he hhalt hout hkeep =>
      refine ⟨hkeep.memSize, ?_⟩
      obtain hmem | ⟨k, m, a, v, hk, hm, ha, hmem⟩ := effect_mem he
      · exact Or.inl hmem
      · refine Or.inr ⟨hc, i, k, m, a, (fetchDecode_eq_ok_iff.mp hi).2, hk, hm, ha, fun b hb => ?_⟩
        rw [hmem, Memory.read_write_other _ _ hb]
    | suspends m hi ht => exact ht ▸ ⟨rfl, Or.inl rfl⟩
    | stops i hi hhalt ht => exact ht ▸ ⟨rfl, Or.inl rfl⟩

/-! ## The run-state table -/

/-- Settles O38: the five ways of serving the caller and the four of an instruction are the table's rows, in its
order. -/
theorem everyTransitionIsInTheTable : Obligations.EveryTransitionIsInTheTable := by
  unfold Obligations.EveryTransitionIsInTheTable
  intro s t hinv hstep
  obtain ⟨hc, hserve⟩ | ⟨hc, hr, hcase⟩ := step_cases_by_call hstep
  · obtain ⟨hq, rfl⟩ | ⟨image, rest, hq, -, rfl⟩ | ⟨x, y, rest, hq, hactive, rfl⟩ | ⟨x, y, rest, hq, hhalted, rfl⟩ |
      ⟨x, y, rest, f, hq, hfaulted, hf, rfl⟩ := serveCaller_cases hserve
    · exact .inl ⟨hc, hq, rfl⟩
    · exact .inr (.inl ⟨hc, ⟨image, rest, hq⟩, rfl, rfl, rfl⟩)
    · exact .inr (.inr (.inl ⟨hc, hactive, ⟨x, y, rest, hq⟩, rfl, rfl, rfl⟩))
    · exact .inr (.inr (.inr (.inl ⟨hc, hhalted, ⟨x, y, rest, hq⟩, hhalted, hc, rfl⟩)))
    · exact .inr (.inr (.inr (.inr (.inl ⟨hc, hfaulted, ⟨x, y, rest, hq⟩, hfaulted, hc, f, hf, hf, rfl⟩))))
  · refine .inr (.inr (.inr (.inr (.inr ?_))))
    cases hcase with
    | faults f hf ht => exact .inr (.inr (.inr ⟨hc, hr, ht ▸ rfl, ht ▸ rfl, f, ht ▸ rfl, ht ▸ rfl⟩))
    | goesOn i hi he hhalt hout hkeep =>
      exact .inl ⟨hc, hr, hkeep.inCall.trans hc, hkeep.fsm.trans hr,
        hkeep.results, i, (fetchDecode_eq_ok_iff.mp hi).2, hout, hhalt⟩
    | suspends m hi ht =>
      exact .inr (.inl ⟨hc, hr, ht ▸ rfl, ht ▸ rfl, m, (fetchDecode_eq_ok_iff.mp hi).2, ht ▸ rfl⟩)
    | stops i hi hhalt ht =>
      exact .inr (.inr (.inl ⟨hc, hr, ht ▸ rfl, ht ▸ rfl, ht ▸ rfl, i, (fetchDecode_eq_ok_iff.mp hi).2, hhalt⟩))

/-! ## Faults -/

/-- Settles O39: a step that ends Faulted is the fault of its instruction, and that fault is in the table. -/
theorem faultsArePrecise : Obligations.FaultsArePrecise := by
  unfold Obligations.FaultsArePrecise
  intro s t hc hstep hfaulted
  obtain ⟨hr, hcase⟩ := step_inCall_cases hc hstep
  cases hcase with
  | faults f hf ht => exact ⟨f, ht ▸ faultTaken_takeFault s f, instructionFault_legal hf⟩
  | goesOn i hi he hhalt hout hkeep => exact absurd hfaulted (he.fsm_ne_faulted hr)
  | suspends m hi ht => simp [ht] at hfaulted
  | stops i hi hhalt ht => simp [ht] at hfaulted

/-- An effect leaves the fault record alone. -/
theorem Effect.flt_eq {i : Instr} {s t : State} (h : Effect i s t) : t.flt = s.flt := by
  obtain ⟨-, -, ht⟩ | ⟨m, -, rfl⟩ | ⟨-, rfl⟩ := effect_cases h
  · exact (keepsCall_of_frame ht).flt
  · rfl
  · rfl

/-- The fault that would be raised again is the fault of the instruction at `pc`. -/
theorem faultRaised_eq (s : State) : faultRaised s = instructionFault s := by
  have hsame : SameProgram s { s with flt := none } := ⟨rfl, rfl, rfl, rfl⟩
  rw [← hsame.instructionFault]
  obtain ⟨f, hf, hexec⟩ | ⟨hf, i, t, -, he, hexec⟩ := execOne_cases { s with flt := none }
  · simp only [faultRaised, hexec, hf, State.takeFault_flt]
  · simp only [faultRaised, hexec, hf, he.flt_eq]

/-- Settles O40: what becomes Faulted has taken the fault of an instruction that is still there, and what stays Faulted
keeps memory, `pc`, `rb` and the record. -/
theorem faultRecordStaysReproducible : Obligations.FaultRecordStaysReproducible := by
  unfold Obligations.FaultRecordStaysReproducible
  intro s t hs hstep hfaulted
  rw [faultRaised_eq] at hs ⊢
  obtain ⟨hc, hserve⟩ | ⟨hc, hr, hcase⟩ := step_cases_by_call hstep
  · obtain ⟨-, rfl⟩ | ⟨image, rest, -, -, rfl⟩ | ⟨x, y, rest, -, -, rfl⟩ | ⟨x, y, rest, -, hhalted, rfl⟩ |
      ⟨x, y, rest, f, -, -, -, rfl⟩ := serveCaller_cases hserve
    · exact hs hfaulted
    · cases hfaulted
    · cases hfaulted
    · exact hs hfaulted
    · exact hs hfaulted
  · cases hcase with
    | faults f hf ht =>
      subst ht
      exact (SameProgram.instructionFault (t := s.takeFault f) ⟨rfl, rfl, rfl, rfl⟩).trans hf
    | goesOn i hi he hhalt hout hkeep => exact absurd hfaulted (he.fsm_ne_faulted hr)
    | suspends m hi ht => simp [ht] at hfaulted
    | stops i hi hhalt ht => simp [ht] at hfaulted

/-! ## Results and the end of a call -/

/-- A step of an open call goes on without a result, or ends the call with one. -/
theorem InCallStep.goesOn_or_ends {s t : State} (hr : s.fsm = .running) (h : InCallStep s t) :
    t.requests = s.requests ∧ t.xin = s.xin ∧ t.sig = s.sig ∧
      ((t.inCall = s.inCall ∧ t.fsm = .running ∧ t.results = s.results) ∨
       (t.inCall = false ∧ t.fsm ≠ .running ∧ t.xv = false ∧ ∃ r, t.results = s.results ++ [r])) := by
  cases h with
  | faults f hf ht => exact ht ▸ ⟨rfl, rfl, rfl, Or.inr ⟨rfl, by simp, rfl, _, rfl⟩⟩
  | goesOn i hi he hhalt hout hkeep =>
    exact ⟨hkeep.requests, hkeep.xin, hkeep.sig,
      Or.inl ⟨hkeep.inCall, hkeep.fsm.trans hr, hkeep.results⟩⟩
  | suspends m hi ht => exact ht ▸ ⟨rfl, rfl, rfl, Or.inr ⟨rfl, by simp, rfl, _, rfl⟩⟩
  | stops i hi hhalt ht => exact ht ▸ ⟨rfl, rfl, rfl, Or.inr ⟨rfl, by simp, rfl, _, rfl⟩⟩

/-- Settles O41: a request served moves from the waiting calls to the open one or to the results, and the step that ends
a call adds its result. -/
theorem everyCallGetsOneResult : Obligations.EveryCallGetsOneResult := by
  unfold Obligations.EveryCallGetsOneResult
  intro s t hstep
  unfold State.openCalls
  obtain ⟨hc, hserve⟩ | ⟨hc, hr, hcase⟩ := step_cases_by_call hstep
  · obtain ⟨-, rfl⟩ | ⟨image, rest, hq, -, rfl⟩ | ⟨x, y, rest, hq, -, rfl⟩ | ⟨x, y, rest, hq, -, rfl⟩ |
      ⟨x, y, rest, f, hq, -, -, rfl⟩ := serveCaller_cases hserve
    · exact ⟨List.prefix_rfl, rfl⟩
    · exact ⟨List.prefix_rfl, by simp [hq, hc, Request.isStep, State.create]⟩
    · exact ⟨List.prefix_rfl, by simp [hq, hc, List.countP_cons, Request.isStep]⟩
    · exact ⟨List.prefix_append _ _, by simp [hq, hc, List.countP_cons, Request.isStep]; omega⟩
    · exact ⟨List.prefix_append _ _, by simp [hq, hc, List.countP_cons, Request.isStep]; omega⟩
  · obtain ⟨hq, -, -, ⟨hc', -, hres⟩ | ⟨hc', -, -, r, hres⟩⟩ := hcase.goesOn_or_ends hr
    · exact ⟨hres ▸ List.prefix_rfl, by rw [hq, hc', hres]⟩
    · exact ⟨hres ▸ List.prefix_append _ _, by simp [hq, hc', hc, hres]; omega⟩

/-- Settles O42: of the two ways an instruction can leave the call, the one that ends it clears `xv`. -/
theorem endOfCallDropsTheInput : Obligations.EndOfCallDropsTheInput := by
  unfold Obligations.EndOfCallDropsTheInput
  intro s t hc hstep hc'
  obtain ⟨hr, hcase⟩ := step_inCall_cases hc hstep
  obtain ⟨-, hxin, hsig, ⟨hsame, -⟩ | ⟨-, -, hxv, -⟩⟩ := hcase.goesOn_or_ends hr
  · simp [hsame, hc] at hc'
  · exact ⟨hxv, hxin, hsig⟩

/-! ## A store is seen by the next fetch -/

theorem arity_le (i : Instr) : i.arity ≤ 3 := by cases i <;> simp [Instr.arity, Instr.modes]

/-- Settles O43: the five storing instructions complete alike (`exec_of_stores`), and `pc` then stands right behind the
instruction, from where both clauses read the written cell. -/
theorem storedWordIsFetchedNext : Obligations.StoredWordIsFetchedNext := by
  unfold Obligations.StoredWordIsFetchedNext
  intro s i k m a v hinv hc hpc hd hk hm hsrc hdest hv hf
  have hr := hinv.call_is_running hc
  obtain ⟨rfl, xv, hexec⟩ := exec_of_stores hk hm hsrc hdest hv hf
  obtain ⟨hword, -, ha⟩ := hdest
  refine ⟨_, (step_of_decoded hc hr hpc hd).trans hexec, ?_⟩
  set t := ({ s with xv := xv }.writeCell a.toNat (BitVec.ofInt 64 v)).advance (i.arity + 1)
  have harity := arity_le i
  have hpc' : t.pc.toInt = s.pc.toInt + (i.arity + 1 : Nat) :=
    toInt_pc_advance (s := s) hinv.size_legal ⟨by omega, by omega⟩ hword
  have hread : t.mem.read a.toNat = BitVec.ofInt 64 v := Memory.read_write_same hinv.memory_canonical _ _
  push_cast at hpc'
  refine ⟨fun j haj hj => ?_, fun q haq => ?_⟩
  · have hat : t.pc.toInt = a := by omega
    exact step_of_decoded hc hr (hat ▸ ha) (by rw [hat, hread, hj])
  · rw [rawOperand, show t.pc.toInt + q = a by omega, hread, toInt_ofInt_of_fits hf]

end Sys2Proof.Machine
end

section
/-! The machine invariant (`State.Inv`): it holds of every created machine, and each way a step can end keeps it: O7 to
O10. -/
namespace Sys2Proof.Machine

/-! ## Creation -/

/-- A created machine meets the invariant, whatever its caller still asks for and has been answered. -/
theorem inv_create {image : List Word} (hl : image.length ≤ Config.maxMemSize) (requests : List Request)
    (results : List CallResult) : State.Inv { State.create image with requests := requests, results := results } where
  memory_canonical := Memory.wf_ofCells 0 image
  cells_inside := fun c hc => (Memory.mem_ofCells c hc).2.trans_eq (Nat.zero_add _)
  size_legal := hl
  call_is_running := fun _ => rfl
  record_iff_faulted := ⟨fun h => absurd rfl h, fun h => by cases h⟩
  record_legal := fun f hf => by cases hf
  no_input_kept := fun _ => rfl
  fresh_if_waiting := fun _ _ => ⟨rfl, rfl⟩
  halted_at_halt := fun h => by cases h

theorem inv_created {image : List Word} (hl : image.length ≤ Config.maxMemSize) : (State.create image).Inv :=
  inv_create hl [] []

/-- Settles O7: `MEM_SIZE` is the greatest legal one, and the registers hold what creation gives them. -/
theorem resetHoldsTheSpecValues : Obligations.ResetHoldsTheSpecValues := by
  unfold Obligations.ResetHoldsTheSpecValues
  exact ⟨rfl, rfl, rfl, rfl, rfl, by decide, le_refl _⟩

/-- Settles O8: the reset machine is a created one (`reset_eq_create`). -/
theorem invariantHoldsAtReset : Obligations.InvariantHoldsAtReset := by
  unfold Obligations.InvariantHoldsAtReset
  rw [reset_eq_create]
  exact inv_created (List.length_replicate ..).le

/-! ## Steps that keep the machine -/

section
variable {s t : State}

/-- There is no record while the machine runs or is suspended. -/
theorem State.Inv.flt_eq_none (h : s.Inv) (hr : s.fsm ≠ .faulted) : s.flt = none :=
  not_not.mp fun hf => hr (h.record_iff_faulted.mp hf)

/-- The invariant does not look at the caller's lists. -/
theorem State.Inv.with_lists (h : s.Inv) (requests : List Request) (results : List CallResult) :
    State.Inv { s with requests := requests, results := results } :=
  ⟨h.memory_canonical, h.cells_inside, h.size_legal, h.call_is_running, h.record_iff_faulted, h.record_legal,
    h.no_input_kept, h.fresh_if_waiting, h.halted_at_halt⟩

theorem State.Inv.latch (h : s.Inv) (hactive : s.fsm = .running ∨ s.fsm = .suspended) (x : Option Word) (y : Word) :
    (s.latch x y).Inv := by
  have hflt : s.flt = none := h.flt_eq_none (by rcases hactive with hr | hr <;> simp [hr])
  exact {
    memory_canonical := h.memory_canonical
    cells_inside := h.cells_inside
    size_legal := h.size_legal
    call_is_running := fun _ => rfl
    record_iff_faulted := by simp [hflt]
    record_legal := h.record_legal
    no_input_kept := fun hc => by simp at hc
    fresh_if_waiting := fun hc => by simp at hc
    halted_at_halt := fun hr => by simp at hr }

/-- A step that goes on wrote memory inside the machine at most. -/
theorem State.Inv.goesOn (h : s.Inv) (hc : s.inCall = true) (hr : s.fsm = .running) {i : Instr} (he : Effect i s t)
    (hkeep : KeepsCall s t) : t.Inv := by
  have hflt : t.flt = none := hkeep.flt.trans (h.flt_eq_none (by simp [hr]))
  have hrun : t.fsm = .running := hkeep.fsm.trans hr
  have hcall : t.inCall = true := hkeep.inCall.trans hc
  have hmem : Memory.wf t.mem ∧ ∀ c ∈ t.mem, c.1 < t.memSize := by
    rw [hkeep.memSize]
    obtain hmem | ⟨k, m, a, v, -, -, ⟨-, -, ha⟩, hmem⟩ := effect_mem he <;> rw [hmem]
    · exact ⟨h.memory_canonical, h.cells_inside⟩
    · exact ⟨Memory.wf_write h.memory_canonical _ _, Memory.write_inside h.cells_inside (by omega) v⟩
  exact {
    memory_canonical := hmem.1
    cells_inside := hmem.2
    size_legal := hkeep.memSize.trans_le h.size_legal
    call_is_running := fun _ => hrun
    record_iff_faulted := by simp [hflt, hrun]
    record_legal := by simp [hflt]
    no_input_kept := by simp [hcall]
    fresh_if_waiting := by simp [hcall]
    halted_at_halt := by simp [hrun] }

/-- A call that ends without a fault leaves the program as it is, but for `pc`. -/
theorem State.Inv.endCall (h : s.Inv) (hr : s.fsm = .running) {fsm : RunState} (hne : fsm ≠ .running)
    (hnf : fsm ≠ .faulted) (hhalt : fsm = .halted → ∃ i, fetchDecode s = .ok i ∧ actsAsHalt i = true)
    (r : CallResult) : (s.endCall fsm r).Inv where
  memory_canonical := h.memory_canonical
  cells_inside := h.cells_inside
  size_legal := h.size_legal
  call_is_running := by simp
  record_iff_faulted := by simp [h.flt_eq_none (show s.fsm ≠ .faulted by simp [hr]), hnf]
  record_legal := h.record_legal
  no_input_kept := fun _ => rfl
  fresh_if_waiting := fun _ hrun => absurd hrun hne
  halted_at_halt := hhalt

theorem State.Inv.takeFault (h : s.Inv) {f : FaultRecord} (hf : f.Legal s.memSize) : (s.takeFault f).Inv where
  memory_canonical := h.memory_canonical
  cells_inside := h.cells_inside
  size_legal := h.size_legal
  call_is_running := by simp
  record_iff_faulted := by simp
  record_legal := by simpa using hf
  no_input_kept := fun _ => rfl
  fresh_if_waiting := by simp
  halted_at_halt := by simp

/-- An Output moves `pc` and ends the call. -/
theorem State.Inv.advance_suspend (h : s.Inv) (hr : s.fsm = .running) (n : Nat) (v : Word) :
    ((s.advance n).suspend v).Inv := by
  have hsusp := h.endCall hr (fsm := .suspended) (by decide) (by decide) (by simp) (.value v)
  exact { hsusp with
    fresh_if_waiting := by simp
    halted_at_halt := by simp }

end

/-- Settles O9: one lemma above for each way a step can end. -/
theorem everyStepKeepsTheInvariant : Obligations.EveryStepKeepsTheInvariant := by
  unfold Obligations.EveryStepKeepsTheInvariant
  intro s t h hstep
  obtain ⟨-, hserve⟩ | ⟨hc, hr, hcase⟩ := step_cases_by_call hstep
  · obtain ⟨-, rfl⟩ | ⟨image, rest, -, hl, rfl⟩ | ⟨x, y, rest, -, hactive, rfl⟩ | ⟨x, y, rest, -, -, rfl⟩ |
      ⟨x, y, rest, f, -, -, -, rfl⟩ := serveCaller_cases hserve
    · exact h
    · exact inv_create hl rest s.results
    · exact (h.with_lists rest s.results).latch hactive x y
    · exact h.with_lists rest _
    · exact h.with_lists rest _
  · cases hcase with
    | faults f hf ht => exact ht ▸ h.takeFault (instructionFault_legal hf)
    | goesOn i hi he hhalt hout hkeep => exact h.goesOn hc hr he hkeep
    | suspends m hi ht => exact ht ▸ h.advance_suspend hr 2 _
    | stops i hi hhalt ht => exact ht ▸ h.endCall hr (by decide) (by decide) (fun _ => ⟨i, hi, hhalt⟩) .noValue

/-! ## A next state always exists -/

/-- One instruction always has a next state, and leaves the caller's requests alone. -/
theorem exists_step_inCall {s : State} (hc : s.inCall = true) (hr : s.fsm = .running) :
    ∃ t, step s = .next t ∧ t.requests = s.requests := by
  have hstep : ∃ t, step s = .next t := by
    rw [step_in_call hc hr]
    obtain ⟨f, -, h⟩ | ⟨-, i, t, -, -, h⟩ := execOne_cases s
    exacts [⟨_, h⟩, ⟨t, h⟩]
  obtain ⟨t, ht⟩ := hstep
  exact ⟨t, ht, ((step_inCall_cases hc ht).2.goesOn_or_ends hr).1⟩

/-- A step request is always answered or begun: a Faulted machine has its record. -/
theorem exists_step_stepRequest {s : State} (h : s.Inv) (hc : s.inCall = false) {x : Option Word} {y : Word}
    {rest : List Request} (hq : s.requests = .step x y :: rest) : ∃ t, step s = .next t ∧ t.requests = rest := by
  cases hr : s.fsm with
  | running => exact ⟨_, step_of_stepRequest_active hc (Or.inl hr) hq, rfl⟩
  | suspended => exact ⟨_, step_of_stepRequest_active hc (Or.inr hr) hq, rfl⟩
  | halted => exact ⟨_, step_of_stepRequest_halted hc hr hq, rfl⟩
  | faulted =>
    obtain ⟨f, hf⟩ := Option.ne_none_iff_exists'.mp (h.record_iff_faulted.mpr hr)
    exact ⟨_, step_of_stepRequest_faulted hc hr hf hq, rfl⟩

/-- Settles O10: by whether a call is in progress, and between calls by the first request. -/
theorem everyStepHasANextState : Obligations.EveryStepHasANextState := by
  unfold Obligations.EveryStepHasANextState
  intro s h hlegal
  cases hc : s.inCall with
  | true =>
    obtain ⟨t, ht, hq⟩ := exists_step_inCall hc (h.call_is_running hc)
    exact ⟨t, ht, hq ▸ hlegal⟩
  | false =>
    cases hq : s.requests with
    | nil => exact ⟨s, idleMachineWaits s hc hq, hlegal⟩
    | cons r rest =>
      rw [hq] at hlegal
      obtain ⟨hr, hrest⟩ := List.forall_mem_cons.mp hlegal
      cases r with
      | create image => exact ⟨_, step_of_createRequest hc hq hr, hrest⟩
      | step x y =>
        obtain ⟨t, ht, hq'⟩ := exists_step_stepRequest h hc hq
        exact ⟨t, ht, hq' ▸ hrest⟩

end Sys2Proof.Machine
end

section
/-! Two machines in step: a relation that every update keeps is kept by every instruction, as long as the two agree on
the program and on the input value. From it the two noninterference statements: O45 and O48. -/
namespace Sys2Proof.Machine

/-- Every update an instruction is built from keeps the relation. -/
structure KeptByUpdates (R : State → State → Prop) : Prop where
  writeCell : ∀ {s s'} (a : Nat) (v : Word), R s s' → R (s.writeCell a v) (s'.writeCell a v)
  advance : ∀ {s s'} (n : Nat), R s s' → R (s.advance n) (s'.advance n)
  jump : ∀ {s s'} (v : Word), R s s' → R (s.jump v) (s'.jump v)
  setRb : ∀ {s s'} (v : Word), R s s' → R (s.setRb v) (s'.setRb v)
  consumeInput : ∀ {s s'}, R s s' → R s.consumeInput s'.consumeInput
  endCall : ∀ {s s'} (q : RunState) (r : CallResult), R s s' → R (s.endCall q r) (s'.endCall q r)
  takeFault : ∀ {s s'} (f : FaultRecord), R s s' → R (s.takeFault f) (s'.takeFault f)

/-- The two outcomes are alike, next states up to the relation. -/
inductive OutcomesRelated (R : State → State → Prop) :
    Host.Outcome State Fault Refusal → Host.Outcome State Fault Refusal → Prop where
  | next {t t' : State} (h : R t t') : OutcomesRelated R (.next t) (.next t')
  | fault (r : Fault) : OutcomesRelated R (.fault r) (.fault r)
  | refused (r : Refusal) : OutcomesRelated R (.refused r) (.refused r)

section
variable {R : State → State → Prop} {s s' : State}

/-- A computation the two states share, then an update of each. -/
theorem conclude_related (hR : KeptByUpdates R) (h : R s s') {α : Type} (x : Except FaultRecord α) {g g' : α → State}
    (hg : ∀ a, R (g a) (g' a)) :
    OutcomesRelated R (conclude s (x >>= fun a => .ok (g a))) (conclude s' (x >>= fun a => .ok (g' a))) := by
  cases x with
  | error f => exact .next (hR.takeFault f h)
  | ok a => exact .next (hg a)

theorem storeResult_related (hR : KeptByUpdates R) (h : R s s') (hp : SameProgram s s') (m1 m2 m3 : Mode)
    (f : Word → Word → Except FaultRecord Word) :
    OutcomesRelated R (storeResult s m1 m2 m3 f) (storeResult s' m1 m2 m3 f) := by
  unfold storeResult
  rw [hp.resolveThree]
  cases resolveThree s m1 m2 m3 with
  | error e => exact .next (hR.takeFault e h)
  | ok p =>
    obtain ⟨v1, v2, t⟩ := p
    exact conclude_related hR h (f v1 v2) fun v => hR.advance 4 (hR.writeCell t v h)

theorem jumpWhen_related (hR : KeptByUpdates R) (h : R s s') (hp : SameProgram s s') (m1 m2 : Mode)
    (p : Word → Bool) : OutcomesRelated R (jumpWhen s m1 m2 p) (jumpWhen s' m1 m2 p) := by
  unfold jumpWhen
  rw [hp.resolveTwo]
  refine conclude_related hR h (resolveTwo s m1 m2) fun v => ?_
  split
  · exact hR.jump v.2 h
  · exact hR.advance 3 h

theorem execAdjustRelative_related (hR : KeptByUpdates R) (h : R s s') (hp : SameProgram s s') (m1 : Mode) :
    OutcomesRelated R (execAdjustRelative m1 s) (execAdjustRelative m1 s') := by
  unfold execAdjustRelative
  rw [hp.resolveSource, hp.rb]
  cases resolveSource s m1 with
  | error e => exact .next (hR.takeFault e h)
  | ok v => exact conclude_related hR h (narrow (s.rb.toInt + v.toInt)) fun b => hR.advance 2 (hR.setRb b h)

/-- Related states with one program and one input value execute every instruction alike. -/
theorem exec_related (hR : KeptByUpdates R) (h : R s s') (hp : SameProgram s s')
    (hin : s'.inputValue = s.inputValue) (i : Instr) : OutcomesRelated R (exec i s) (exec i s') := by
  cases i with
  | add a b dst => exact storeResult_related hR h hp a b dst fun v1 v2 => narrow (v1.toInt + v2.toInt)
  | multiply a b dst => exact storeResult_related hR h hp a b dst fun v1 v2 => narrow (v1.toInt * v2.toInt)
  | saveInput dst =>
    simp only [exec, execSaveInput, hp.resolveDestination, hin]
    exact conclude_related hR h (resolveDestination s dst) fun t =>
      hR.advance 2 (hR.writeCell t s.inputValue (hR.consumeInput h))
  | output src =>
    simp only [exec, execOutput, hp.resolveSource]
    exact conclude_related hR h (resolveSource s src) fun v => hR.endCall _ _ (hR.advance 2 h)
  | jumpIfTrue cond target => exact jumpWhen_related hR h hp cond target _
  | jumpIfFalse cond target => exact jumpWhen_related hR h hp cond target fun v => !isTrue v
  | lessThan a b dst =>
    exact storeResult_related hR h hp a b dst fun v1 v2 => .ok (truthValue (decide (v1.toInt < v2.toInt)))
  | equals a b dst => exact storeResult_related hR h hp a b dst fun v1 v2 => .ok (truthValue (decide (v1 = v2)))
  | adjustRelative a => exact execAdjustRelative_related hR h hp a
  | halt => exact .next (hR.endCall _ _ h)
  | unknownOperation opc => exact .next (hR.endCall _ _ h)

/-- Related states with one program and one input value run the instruction at `pc` alike. -/
theorem execOne_related (hR : KeptByUpdates R) (h : R s s') (hp : SameProgram s s')
    (hin : s'.inputValue = s.inputValue) : OutcomesRelated R (execOne s) (execOne s') := by
  unfold execOne
  rw [hp.fetchDecode]
  cases fetchDecode s with
  | error f => exact .next (hR.takeFault f h)
  | ok i => exact exec_related hR h hp hin i

/-- Related outcomes, by the outcome of the first machine. -/
theorem OutcomesRelated.elim {o o' : Host.Outcome State Fault Refusal} (h : OutcomesRelated R o o') :
    (∀ t, o = .next t → ∃ t', o' = .next t' ∧ R t t') ∧ (∀ r, o = .fault r → o' = .fault r) ∧
      (∀ r, o = .refused r → o' = .refused r) := by
  cases h with
  | next h =>
    refine ⟨?_, nofun, nofun⟩
    rintro _ ⟨⟩
    exact ⟨_, rfl, h⟩
  | fault r => exact ⟨nofun, fun _ hr => hr, nofun⟩
  | refused r => exact ⟨nofun, nofun, fun _ hr => hr⟩

end

/-! ## Dead latches -/

/-- The latches an instruction can read are the same, so the two states have one program and one input value. -/
theorem SameButDeadLatches.sameProgram {s s' : State} (h : SameButDeadLatches s s') : SameProgram s s' := by
  rw [h.rest]
  exact ⟨rfl, rfl, rfl, rfl⟩

theorem SameButDeadLatches.inputValue_eq {s s' : State} (h : SameButDeadLatches s s') (hc : s.inCall = true) :
    s'.inputValue = s.inputValue := by
  obtain ⟨hxv, hsig, hxin⟩ := h.live hc
  unfold State.inputValue
  rw [hxv, hsig]
  split
  · exact hxin ‹_›
  · rfl

theorem sameButDeadLatches_kept : KeptByUpdates SameButDeadLatches where
  writeCell a v h := ⟨congrArg (State.writeCell · a v) h.rest, h.live⟩
  advance n h := ⟨congrArg (State.advance · n) h.rest, h.live⟩
  jump v h := ⟨congrArg (State.jump · v) h.rest, h.live⟩
  setRb v h := ⟨congrArg (State.setRb · v) h.rest, h.live⟩
  consumeInput h := ⟨congrArg State.consumeInput h.rest, fun hc => ⟨rfl, (h.live hc).2.1, fun hx => by cases hx⟩⟩
  endCall q r h := ⟨congrArg (State.endCall · q r) h.rest, fun hc => by cases hc⟩
  takeFault f h := ⟨congrArg (State.takeFault · f) h.rest, fun hc => by cases hc⟩

theorem SameButDeadLatches.refl (s : State) : SameButDeadLatches s s := ⟨rfl, fun _ => ⟨rfl, rfl, fun _ => rfl⟩⟩

/-- A call that begins overwrites the latches it can read. -/
theorem SameButDeadLatches.latch {s s' : State} (h : SameButDeadLatches s s') (x : Option Word) (y : Word) :
    SameButDeadLatches (s.latch x y) (s'.latch x y) where
  rest := congrArg (State.latch · x y) h.rest
  live := fun _ => ⟨rfl, rfl, fun hx => by
    obtain ⟨v, rfl⟩ := Option.isSome_iff_exists.mp hx
    rfl⟩

theorem beginCall_sameButDeadLatches {s s' : State} (h : SameButDeadLatches s s') (hc : s.inCall = false)
    (x : Option Word) (y : Word) :
    OutcomesRelated SameButDeadLatches (beginCall s x y) (beginCall s' x y) := by
  have hanswer (r : CallResult) : SameButDeadLatches (s.answer r) (s'.answer r) :=
    ⟨congrArg (State.answer · r) h.rest, fun hc' => by simp [hc] at hc'⟩
  have hfsm : s'.fsm = s.fsm := by rw [h.rest]
  have hflt : s'.flt = s.flt := by rw [h.rest]
  unfold beginCall
  rw [hfsm, hflt]
  cases s.fsm with
  | running => exact .next (h.latch x y)
  | suspended => exact .next (h.latch x y)
  | halted => exact .next (hanswer .noValue)
  | faulted =>
    cases s.flt with
    | none => exact .fault _
    | some f => exact .next (hanswer (.fault f))

theorem serveCaller_sameButDeadLatches {s s' : State} (h : SameButDeadLatches s s') (hc : s.inCall = false) :
    OutcomesRelated SameButDeadLatches (serveCaller s) (serveCaller s') := by
  have hreq : s'.requests = s.requests := by rw [h.rest]
  have hres : s'.results = s.results := by rw [h.rest]
  unfold serveCaller
  rw [hreq]
  cases s.requests with
  | nil => exact .next h
  | cons r rest =>
    cases r with
    | create image =>
      simp only [recreate, hres]
      split
      · exact .next (.refl _)
      · exact .refused _
    | step x y =>
      refine beginCall_sameButDeadLatches (s := { s with requests := rest }) (s' := { s' with requests := rest })
        ⟨?_, h.live⟩ hc x y
      exact congrArg (fun u : State => { u with requests := rest }) h.rest

/-- Settles O45: between calls the request overwrites the latches, and in a call an instruction reads live ones
alone. -/
theorem deadLatchesHaveNoInfluence : Obligations.DeadLatchesHaveNoInfluence := by
  unfold Obligations.DeadLatchesHaveNoInfluence
  intro s s' h
  refine OutcomesRelated.elim ?_
  have hcall : s'.inCall = s.inCall := by rw [h.rest]
  have hfsm : s'.fsm = s.fsm := by rw [h.rest]
  cases hc : s.inCall with
  | false =>
    rw [step_idle hc, step_idle (hcall.trans hc)]
    exact serveCaller_sameButDeadLatches h hc
  | true =>
    simp only [step, transition, hcall, hfsm, hc]
    cases s.fsm with
    | running => exact execOne_related sameButDeadLatches_kept h h.sameProgram (h.inputValue_eq hc)
    | suspended => exact .fault _
    | halted => exact .fault _
    | faulted => exact .fault _

/-! ## The caller's lists -/

/-- `t` has come from `s₀` with the same requests and some new results; `t'` is `t` with the requests `q` and the same
new results behind `o`. -/
def OtherLists (s₀ : State) (q : List Request) (o : List CallResult) (t t' : State) : Prop :=
  t.requests = s₀.requests ∧ ∃ new, t.results = s₀.results ++ new ∧ t' = { t with requests := q, results := o ++ new }

section
variable {s₀ : State} {q : List Request} {o : List CallResult}

theorem otherLists_self : OtherLists s₀ q o s₀ { s₀ with requests := q, results := o } :=
  ⟨rfl, [], by simp, by simp⟩

theorem otherLists_kept : KeptByUpdates (OtherLists s₀ q o) where
  writeCell a v := fun ⟨hq, new, hres, ht⟩ => ⟨hq, new, hres, congrArg (State.writeCell · a v) ht⟩
  advance n := fun ⟨hq, new, hres, ht⟩ => ⟨hq, new, hres, congrArg (State.advance · n) ht⟩
  jump v := fun ⟨hq, new, hres, ht⟩ => ⟨hq, new, hres, congrArg (State.jump · v) ht⟩
  setRb v := fun ⟨hq, new, hres, ht⟩ => ⟨hq, new, hres, congrArg (State.setRb · v) ht⟩
  consumeInput := fun ⟨hq, new, hres, ht⟩ => ⟨hq, new, hres, congrArg State.consumeInput ht⟩
  endCall fsm r := by
    rintro ⟨hq, new, hres, rfl⟩
    refine ⟨hq, new ++ [r], by simp [hres], ?_⟩
    simp only [State.endCall, List.append_assoc]
  takeFault f := by
    rintro ⟨hq, new, hres, rfl⟩
    refine ⟨hq, new ++ [.fault f], by simp [hres], ?_⟩
    simp only [State.takeFault, State.endCall, List.append_assoc]

end

/-- A served request answers with the same new results whatever lists are behind it. -/
theorem step_of_request_otherLists {s t : State} {r : Request} {rest : List Request} (hc : s.inCall = false)
    (hq : s.requests = r :: rest) (h : step s = .next t) (q : List Request) (o : List CallResult) :
    t.requests = rest ∧ ∃ new, t.results = s.results ++ new ∧
      step { s with requests := r :: q, results := o } = .next { t with requests := q, results := o ++ new } := by
  obtain ⟨hq', -⟩ | ⟨image, rest', hq', hl, rfl⟩ | ⟨x, y, rest', hq', hactive, rfl⟩ |
    ⟨x, y, rest', hq', hhalted, rfl⟩ | ⟨x, y, rest', f, hq', hfaulted, hf, rfl⟩ :=
    serveCaller_cases (step_idle hc ▸ h) <;> rw [hq] at hq' <;> cases hq'
  · refine ⟨rfl, [], by simp, ?_⟩
    rw [step_of_createRequest (s := { s with requests := .create image :: q, results := o }) hc rfl hl,
      List.append_nil]
  · refine ⟨rfl, [], by simp, ?_⟩
    rw [step_of_stepRequest_active (s := { s with requests := .step x y :: q, results := o }) hc hactive rfl,
      List.append_nil]
    rfl
  · exact ⟨rfl, [.noValue], rfl,
      step_of_stepRequest_halted (s := { s with requests := .step x y :: q, results := o }) hc hhalted rfl⟩
  · exact ⟨rfl, [.fault f], rfl,
      step_of_stepRequest_faulted (s := { s with requests := .step x y :: q, results := o }) hc hfaulted hf rfl⟩

/-- Settles O48: an instruction keeps the relation of the lists, a request is served as one equation says. -/
theorem callersListsHaveNoInfluence : Obligations.CallersListsHaveNoInfluence := by
  unfold Obligations.CallersListsHaveNoInfluence
  refine ⟨fun s t q o hc hstep => ?_, fun s t r rest q o hc hq hstep => step_of_request_otherLists hc hq hstep q o⟩
  obtain ⟨hr, -⟩ := step_inCall_cases hc hstep
  rw [step_in_call hc hr] at hstep
  have hrel := execOne_related otherLists_kept (otherLists_self (s₀ := s) (q := q) (o := o)) ⟨rfl, rfl, rfl, rfl⟩ rfl
  obtain ⟨t', ht', hq, new, hres, rfl⟩ := hrel.elim.1 t hstep
  refine ⟨hq, new, hres, ?_⟩
  rw [step_in_call (s := { s with requests := q, results := o }) hc hr, ht']

end Sys2Proof.Machine
end

section
/-! The ports (rule R113): every fault record a step can produce fits them, what they show determines the result, and
they carry one transaction at a time: O47 and O49. -/
namespace Sys2Proof.Machine

/-! ## The magnitude of a fault's value -/

/-- Every error of the computation satisfies `P`. -/
def ErrorsIn {α : Type} (P : FaultRecord → Prop) (x : Except FaultRecord α) : Prop := ∀ f, x = .error f → P f

theorem errorsIn_ok {α : Type} {P : FaultRecord → Prop} (a : α) : ErrorsIn P (.ok a) := fun f h => by cases h

theorem ErrorsIn.bind {α β : Type} {P : FaultRecord → Prop} {x : Except FaultRecord α}
    {g : α → Except FaultRecord β} (hx : ErrorsIn P x) (hg : ∀ a, ErrorsIn P (g a)) : ErrorsIn P (x >>= g) := by
  intro f h
  obtain h | ⟨a, -, h⟩ := bind_eq_error_iff.mp h
  exacts [hx f h, hg a f h]

/-- No fault's value is greater than the greatest product of two Int64. -/
def SmallValue (f : FaultRecord) : Prop := |f.value| ≤ 2 ^ 126

theorem abs_toInt_le (w : Word) : |w.toInt| ≤ 2 ^ 63 := by
  obtain ⟨hlo, hhi⟩ := fits_toInt w
  simp only [minInt64, maxInt64] at hlo hhi
  exact abs_le.mpr ⟨by omega, by omega⟩

theorem abs_toInt_add_le (v w : Word) : |v.toInt + w.toInt| ≤ 2 ^ 126 :=
  calc |v.toInt + w.toInt| ≤ |v.toInt| + |w.toInt| := abs_add_le _ _
    _ ≤ 2 ^ 63 + 2 ^ 63 := add_le_add (abs_toInt_le v) (abs_toInt_le w)
    _ ≤ 2 ^ 126 := by norm_num

theorem abs_toInt_mul_le (v w : Word) : |v.toInt * w.toInt| ≤ 2 ^ 126 :=
  calc |v.toInt * w.toInt| = |v.toInt| * |w.toInt| := abs_mul _ _
    _ ≤ 2 ^ 63 * 2 ^ 63 := mul_le_mul (abs_toInt_le v) (abs_toInt_le w) (abs_nonneg _) (by norm_num)
    _ = 2 ^ 126 := by norm_num

theorem abs_toInt_le_small (w : Word) : |w.toInt| ≤ 2 ^ 126 := (abs_toInt_le w).trans (by norm_num)

theorem abs_effectiveAddress_le {s : State} {m : Mode} {r : Word} {a : Int} (h : effectiveAddress s m r = some a) :
    |a| ≤ 2 ^ 126 := by
  cases m with
  | position =>
    cases h
    exact abs_toInt_le_small r
  | immediate => cases h
  | relative =>
    cases h
    exact abs_toInt_add_le r s.rb

section
variable {s : State}

theorem operandWord_small {k : Nat} (hk : k ≤ 3) : ErrorsIn SmallValue (operandWord s k) := by
  intro f h
  obtain ⟨-, rfl⟩ := operandWord_eq_error_iff.mp h
  have hpc := abs_le.mp (abs_toInt_le s.pc)
  have hsum : |s.pc.toInt + k| ≤ 2 ^ 126 := abs_le.mpr ⟨by omega, by omega⟩
  exact hsum

theorem readOperand_small {k : Nat} {m : Mode} {r : Word} : ErrorsIn SmallValue (readOperand s k m r) := by
  intro f h
  obtain ⟨a, ha, -, rfl⟩ := readOperand_eq_error_iff.mp h
  exact abs_effectiveAddress_le ha

theorem writeTarget_small {k : Nat} {m : Mode} {r : Word} : ErrorsIn SmallValue (writeTarget s k m r) := by
  intro f h
  obtain ⟨-, rfl⟩ | ⟨a, ha, -, rfl⟩ := writeTarget_eq_error_iff.mp h
  · simp [SmallValue]
  · exact abs_effectiveAddress_le ha

theorem resolveSource_small {m1 : Mode} : ErrorsIn SmallValue (resolveSource s m1) :=
  (operandWord_small (by decide)).bind fun _ => readOperand_small

theorem resolveDestination_small {m1 : Mode} : ErrorsIn SmallValue (resolveDestination s m1) :=
  (operandWord_small (by decide)).bind fun _ => writeTarget_small

theorem resolveTwo_small {m1 m2 : Mode} : ErrorsIn SmallValue (resolveTwo s m1 m2) :=
  (operandWord_small (by decide)).bind fun _ => (operandWord_small (by decide)).bind fun _ =>
    readOperand_small.bind fun _ => readOperand_small.bind fun _ => errorsIn_ok _

theorem resolveThree_small {m1 m2 m3 : Mode} : ErrorsIn SmallValue (resolveThree s m1 m2 m3) :=
  (operandWord_small (by decide)).bind fun _ => (operandWord_small (by decide)).bind fun _ =>
    (operandWord_small (by decide)).bind fun _ => readOperand_small.bind fun _ => readOperand_small.bind fun _ =>
      writeTarget_small.bind fun _ => errorsIn_ok _

theorem narrow_small {x : Int} (hx : |x| ≤ 2 ^ 126) : ErrorsIn SmallValue (narrow x) := by
  intro f h
  obtain ⟨-, rfl⟩ := narrow_eq_error_iff.mp h
  exact hx

theorem storeFault_small {m1 m2 m3 : Mode} {f : Word → Word → Except FaultRecord Word} {e : FaultRecord}
    (hf : ∀ v w, ErrorsIn SmallValue (f v w)) (h : storeFault s m1 m2 m3 f = some e) : SmallValue e := by
  unfold storeFault at h
  split at h
  · cases h
    exact resolveThree_small _ ‹_›
  · exact hf _ _ _ (errorOf_eq_some_iff.mp h)

theorem faultOf_small {i : Instr} {f : FaultRecord} (h : faultOf i s = some f) : SmallValue f := by
  cases i with
  | add a b dst => exact storeFault_small (fun v w => narrow_small (abs_toInt_add_le v w)) h
  | multiply a b dst => exact storeFault_small (fun v w => narrow_small (abs_toInt_mul_le v w)) h
  | saveInput dst => exact resolveDestination_small _ (errorOf_eq_some_iff.mp h)
  | output src => exact resolveSource_small _ (errorOf_eq_some_iff.mp h)
  | jumpIfTrue cond target => exact resolveTwo_small _ (errorOf_eq_some_iff.mp h)
  | jumpIfFalse cond target => exact resolveTwo_small _ (errorOf_eq_some_iff.mp h)
  | lessThan a b dst => exact storeFault_small (fun v w => errorsIn_ok _) h
  | equals a b dst => exact storeFault_small (fun v w => errorsIn_ok _) h
  | adjustRelative a =>
    exact resolveSource_small.bind (fun v => narrow_small (abs_toInt_add_le s.rb v)) _ (errorOf_eq_some_iff.mp h)
  | halt => cases h
  | unknownOperation opc => cases h

theorem recordOfDecodeFault_small {w : Word} {d : DecodeFault} (h : decode w = .error d) :
    SmallValue (recordOfDecodeFault d) := by
  obtain ⟨-, rfl⟩ | ⟨k, -, -, rfl⟩ | ⟨k, -, rfl⟩ := decode_error_cases h
  · exact abs_toInt_le_small w
  · have hd := digit_le_nine (k + 1) w.toNat
    exact abs_le.mpr ⟨by simp only [recordOfDecodeFault]; omega, by simp only [recordOfDecodeFault]; omega⟩
  · simp [SmallValue, recordOfDecodeFault]

theorem instructionFault_small {f : FaultRecord} (h : instructionFault s = some f) : SmallValue f := by
  unfold instructionFault at h
  split at h
  · cases h
    obtain ⟨-, rfl⟩ | ⟨-, d, hd, rfl⟩ := fetchDecode_eq_error_iff.mp ‹_›
    exacts [abs_toInt_le_small s.pc, recordOfDecodeFault_small hd]
  · exact faultOf_small h

end

/-! ## What the ports show -/

/-- The operand column of rule R120's table. -/
theorem FaultRecord.Legal.k_le {f : FaultRecord} {n : Nat} (h : f.Legal n) : f.k ≤ 3 := by
  unfold FaultRecord.Legal at h
  simp only [Config.numOperandMax] at h
  split at h <;> omega

theorem FaultCode.number_lt (c : FaultCode) : c.number < 2 ^ 3 := by cases c <;> decide

theorem FaultCode.number_injective {c d : FaultCode} (h : c.number = d.number) : c = d := by
  cases c <;> cases d <;> simp_all [FaultCode.number]

/-- The setting of the ports that shows `r`. -/
def portsOf : CallResult → ResultPorts
  | .value v => ⟨true, true, v, false, 0, 0, 0⟩
  | .noValue => ⟨true, false, 0, false, 0, 0, 0⟩
  | .fault f => ⟨true, false, 0, true, BitVec.ofNat 3 f.code.number, BitVec.ofNat 2 f.k, BitVec.ofInt 128 f.value⟩

theorem portsOf_shows_fault {f : FaultRecord} (hk : f.k ≤ 3) (hv : SmallValue f) :
    (portsOf (.fault f)).Shows (.fault f) := by
  obtain ⟨hlo, hhi⟩ := abs_le.mp hv
  refine ⟨rfl, rfl, rfl, ?_, ?_, ?_⟩
  · exact Nat.mod_eq_of_lt f.code.number_lt
  · exact Nat.mod_eq_of_lt (by omega)
  · exact BitVec.toInt_ofInt_eq_self (by decide) (by omega) (by omega)

/-- The ports show one result at most. -/
theorem shows_unique {p : ResultPorts} {r r' : CallResult} (h : p.Shows r) (h' : p.Shows r') : r' = r := by
  obtain ⟨-, h⟩ := h
  obtain ⟨-, h'⟩ := h'
  cases r with
  | value v => cases r' <;> simp_all
  | noValue => cases r' <;> simp_all
  | fault f =>
    cases r' with
    | value v => simp_all
    | noValue => simp_all
    | fault f' =>
      obtain ⟨-, -, hcode, hk, hv⟩ := h
      obtain ⟨-, -, hcode', hk', hv'⟩ := h'
      obtain ⟨c, k, v⟩ := f
      obtain ⟨c', k', v'⟩ := f'
      obtain rfl := FaultCode.number_injective (hcode'.symm.trans hcode)
      obtain rfl := hk'.symm.trans hk
      obtain rfl := hv'.symm.trans hv
      rfl

/-- Settles O47: a call ends with a value, with None, or with a fault of the table whose value is small. -/
theorem everyResultFitsItsPorts : Obligations.EveryResultFitsItsPorts := by
  unfold Obligations.EveryResultFitsItsPorts
  intro s t hc hstep hc'
  obtain ⟨hr, hcase⟩ := step_inCall_cases hc hstep
  cases hcase with
  | faults f hf ht =>
    exact ⟨.fault f, ht ▸ rfl, ⟨_, portsOf_shows_fault (instructionFault_legal hf).k_le (instructionFault_small hf)⟩,
      fun p r' => shows_unique⟩
  | goesOn i hi he hhalt hout hkeep => simp [hkeep.inCall, hc] at hc'
  | suspends m hi ht =>
    exact ⟨.value (sourceValue s 1 m), ht ▸ rfl, ⟨portsOf (.value _), rfl, rfl, rfl, rfl⟩, fun p r' => shows_unique⟩
  | stops i hi hhalt ht => exact ⟨.noValue, ht ▸ rfl, ⟨portsOf .noValue, rfl, rfl, rfl⟩, fun p r' => shows_unique⟩

/-! ## One transaction at a time -/

/-- Sampling takes a request only when none is in progress. -/
theorem portDriven_of_sampled {s t : State} {p : RequestPorts} (h : s.PortDriven) (hs : s.Sampled p t) :
    t.PortDriven ∧ (1 ≤ s.openCalls → t = s) := by
  obtain ⟨-, rfl⟩ | ⟨-, -, -, rfl⟩ | ⟨hfree, r, -, rfl⟩ := hs
  · exact ⟨h, fun _ => rfl⟩
  · exact ⟨h, fun _ => rfl⟩
  · obtain ⟨hc, hq⟩ := transacting_eq_false_iff.mp hfree
    refine ⟨portDriven_iff.mpr (Or.inr ⟨hc, le_refl 1⟩), fun hopen => ?_⟩
    simp [State.openCalls, hc, hq] at hopen

/-- A machine in the hands of the ports has no request behind the one it serves. -/
theorem rest_eq_nil {s : State} {r : Request} {rest : List Request} (h : s.PortDriven)
    (hq : s.requests = r :: rest) : rest = [] := by
  unfold State.PortDriven at h
  rw [hq, List.length_cons] at h
  exact List.length_eq_zero_iff.mp (by omega)

theorem portDriven_of_step {s t : State} (h : s.PortDriven) (hstep : step s = .next t) : t.PortDriven := by
  obtain ⟨hc, hserve⟩ | ⟨hc, hr, hcase⟩ := step_cases_by_call hstep
  · obtain ⟨-, rfl⟩ | ⟨image, rest, hq, -, rfl⟩ | ⟨x, y, rest, hq, -, rfl⟩ | ⟨x, y, rest, hq, -, rfl⟩ |
      ⟨x, y, rest, f, hq, -, -, rfl⟩ := serveCaller_cases hserve
    · exact h
    all_goals
      obtain rfl := rest_eq_nil h hq
      simp [portDriven_iff, State.create, hc]
  · have hq : s.requests = [] := by simpa [hc] using portDriven_iff.mp h
    obtain ⟨hreq, -⟩ := hcase.goesOn_or_ends hr
    cases hc' : t.inCall <;> simp [portDriven_iff, hc', hreq, hq]

/-- An open call goes on with `step_done` down, or ends and the ports show its one result. -/
def CallStepOnPorts (s t : State) : Prop :=
  (t.openCalls = 1 ∧ t.results = s.results ∧ ∀ p : ResultPorts, p.DrivenBy t ↔ p.stepDone = false) ∨
  (t.openCalls = 0 ∧ ∃ r, t.results = s.results ++ [r] ∧ ∀ p : ResultPorts, p.DrivenBy t ↔ p.Shows r)

theorem callStepOnPorts_of_goesOn {s t : State} (hc : t.inCall = true) (hq : t.requests = [])
    (hres : t.results = s.results) : CallStepOnPorts s t :=
  Or.inl ⟨by simp [State.openCalls, hc, hq], hres, drivenBy_of_transacting (transacting_of_inCall hc)⟩

theorem callStepOnPorts_of_ended {s t : State} {r : CallResult} (hc : t.inCall = false) (hq : t.requests = [])
    (hr : t.fsm ≠ .running) (hres : t.results = s.results ++ [r]) : CallStepOnPorts s t :=
  Or.inr ⟨by simp [State.openCalls, hc, hq], r, hres, drivenBy_of_ended hc hq hr hres⟩

theorem callStepOnPorts_of_step {s t : State} (h : s.PortDriven) (hopen : s.openCalls = 1)
    (hstep : step s = .next t) : CallStepOnPorts s t := by
  obtain ⟨hc, hserve⟩ | ⟨hc, hr, hcase⟩ := step_cases_by_call hstep
  · obtain ⟨hq, -⟩ | ⟨image, rest, hq, -, rfl⟩ | ⟨x, y, rest, hq, -, rfl⟩ | ⟨x, y, rest, hq, hhalted, rfl⟩ |
      ⟨x, y, rest, f, hq, hfaulted, -, rfl⟩ := serveCaller_cases hserve
    · simp [State.openCalls, hc, hq] at hopen
    all_goals obtain rfl := rest_eq_nil h hq
    · simp [State.openCalls, hc, hq, Request.isStep] at hopen
    · exact callStepOnPorts_of_goesOn rfl rfl rfl
    · exact callStepOnPorts_of_ended hc rfl (by simp [hhalted]) rfl
    · exact callStepOnPorts_of_ended hc rfl (by simp [hfaulted]) rfl
  · have hq : s.requests = [] := by simpa [hc] using portDriven_iff.mp h
    obtain ⟨hreq, -, -, ⟨hc', -, hres⟩ | ⟨hc', hr', -, r, hres⟩⟩ := hcase.goesOn_or_ends hr
    · exact callStepOnPorts_of_goesOn (hc'.trans hc) (hreq.trans hq) hres
    · exact callStepOnPorts_of_ended hc' (hreq.trans hq) hr' hres

/-- A created machine with no request is idle and runs, so `step_done` is down. -/
theorem ports_of_create {s t : State} {image : List Word} (hc : s.inCall = false)
    (hq : s.requests = [.create image]) (hstep : step s = .next t) :
    t.transacting = false ∧ ∀ p : ResultPorts, p.DrivenBy t ↔ p.stepDone = false := by
  obtain ⟨hq', -⟩ | ⟨image', rest, hq', -, rfl⟩ | ⟨x, y, rest, hq', -⟩ | ⟨x, y, rest, hq', -⟩ |
    ⟨x, y, rest, f, hq', -⟩ := serveCaller_cases (step_idle hc ▸ hstep) <;> rw [hq] at hq' <;> cases hq'
  exact ⟨rfl, drivenBy_of_running rfl⟩

/-- Settles O49: its four clauses are the four lemmas above. -/
theorem portsCarryOneTransactionAtATime : Obligations.PortsCarryOneTransactionAtATime := by
  unfold Obligations.PortsCarryOneTransactionAtATime
  exact ⟨fun _ _ _ => portDriven_of_sampled, fun _ _ => portDriven_of_step, fun _ _ => callStepOnPorts_of_step,
    fun _ _ _ => ports_of_create⟩

end Sys2Proof.Machine
end

section
/-! The model against the second reading of rule R80: the tuple of `Reference.view`, the decoded instruction and its
operands as the reference reads them, one refinement per instruction, and the checks in their order: O46. -/
namespace Sys2Proof.Machine
open Reference (view)

/-- What the statement asks of a step for each outcome of `ExecOne`. -/
def Refines (s : State) : Reference.Outcome → Prop
  | .goesOn m => ∃ t, step s = .next t ∧ view t = m ∧ t = { s with mem := t.mem, pc := t.pc, rb := t.rb, xv := t.xv }
  | .yields v m => ∃ (t : State) (w : Word), step s = .next t ∧ view t = { m with xv := false } ∧ w.toInt = v ∧
      t = { s with pc := t.pc, xv := false, fsm := .suspended, inCall := false, results := s.results ++ [.value w] }
  | .stops =>
      step s = .next { s with xv := false, fsm := .halted, inCall := false, results := s.results ++ [.noValue] }
  | .raises code k value => ∃ t, step s = .next t ∧ FaultTaken s t ⟨code, k, value⟩

/-! ## The search for the lowest bad operand -/

theorem firstBad_eq_none {n : Nat} {bad : Nat → Bool} (h : Reference.firstBad n bad = none) {j : Nat} (hj : 1 ≤ j)
    (hjn : j ≤ n) (hn : n ≤ 3) : bad j = false := by
  have hmem : j ∈ [1, 2, 3] := by
    obtain rfl | rfl | rfl : j = 1 ∨ j = 2 ∨ j = 3 := by omega
    all_goals decide
  simpa [hjn] using List.find?_eq_none.mp h j hmem

theorem firstBad_eq_some {n k : Nat} {bad : Nat → Bool} (h : Reference.firstBad n bad = some k) :
    1 ≤ k ∧ k ≤ n ∧ bad k = true ∧ ∀ j, 1 ≤ j → j < k → bad j = false := by
  have hk : k ≤ n ∧ bad k = true := by simpa using List.find?_some h
  have hmem : k = 1 ∨ k = 2 ∨ k = 3 := by simpa using List.mem_of_find?_eq_some h
  refine ⟨by omega, hk.1, hk.2, fun j hj hjk => ?_⟩
  cases hbad : bad j with
  | false => rfl
  | true =>
    have hjn : j ≤ n := by omega
    obtain ⟨rfl, rfl⟩ | ⟨rfl, rfl⟩ | ⟨rfl, rfl⟩ : (j = 1 ∧ k = 2) ∨ (j = 1 ∧ k = 3) ∨ (j = 2 ∧ k = 3) := by omega
    · simp [Reference.firstBad, hbad, hjn] at h
    · simp [Reference.firstBad, hbad, hjn] at h
    · cases hfirst : (decide (1 ≤ n) && bad 1) <;> simp [Reference.firstBad, hfirst, hbad, hjn] at h

/-! ## The view -/

theorem view_M {s : State} {a : Int} (h : 0 ≤ a) : (view s).M a = (s.mem.read a.toNat).toInt := if_pos h

theorem view_inRange {s : State} {a : Int} : (view s).inRange a = true ↔ s.InRange a := decide_eq_true_iff

theorem view_inRange_false {s : State} {a : Int} : (view s).inRange a = false ↔ ¬s.InRange a := by
  rw [← Bool.not_eq_true, view_inRange]

/-- A store seen through the view. -/
theorem view_of_stores {s t : State} {a v : Int} {n : Nat} (ha : 0 ≤ a) (h : StoresAndAdvances s t a v n) :
    view t = { (view s).put a v with pc := (view s).pc + n } := by
  obtain ⟨ht, hpc, hv, hother⟩ := h
  have hrest : view t = { view s with M := (view t).M, pc := t.pc.toInt } := by rw [ht]; rfl
  have hM : (view t).M = ((view s).put a v).M := by
    funext b
    simp only [Reference.Tuple.put]
    split
    · subst b
      rw [view_M ha, hv]
    · by_cases hb : 0 ≤ b
      · rw [view_M hb, view_M hb, hother b.toNat (by omega)]
      · simp only [view, if_neg hb]
  rw [hrest, hM, hpc]
  rfl

theorem checked_eq {x : Int} {m : Reference.Tuple} :
    Reference.checked x m = if FitsInt64 x then .goesOn m else .raises .arithmeticOverflow 0 x := by
  unfold Reference.checked
  congr 1

/-! ## The decoded instruction -/

theorem reference_arity {i : Instr} (hw : i.wellFormed = true) : Reference.arity i.opcode = i.arity := by
  cases i with
  | unknownOperation opc => exact (arity_of_unknownOpcode hw).1
  | _ => rfl

theorem destination_writable {i : Instr} {k : Nat} {m : Mode} (hw : i.wellFormed = true)
    (hk : i.destination = some k) (hm : i.modes[k - 1]? = some m) : m ≠ .immediate := by
  cases i with
  | add a b dst | multiply a b dst | lessThan a b dst | equals a b dst | saveInput dst =>
    cases hk
    cases hm
    exact writable_iff.mp hw
  | _ => cases hk

theorem digit_of_hasDigits {ms : List Mode} {n k : Nat} {m : Mode} (h : HasDigits n ms) (hm : ms[k]? = some m) :
    digit k n = m.digit := by
  induction ms generalizing n k with
  | nil => simp at hm
  | cons m' ms ih =>
    obtain ⟨h0, hrest⟩ := h
    cases k with
    | zero =>
      cases hm
      simpa [digit] using h0
    | succ k =>
      rw [← ih hrest hm, digit, digit, Nat.div_div_eq_div_mul, Nat.pow_succ']

/-- The instruction at `pc` is `i`, and the reference machine reads its opcode and its mode digits there. -/
structure Decoded (s : State) (i : Instr) : Prop where
  step_eq : step s = exec i s
  wellFormed : i.wellFormed = true
  opcode : (view s).M (view s).pc % 100 = i.opcode
  mode : ∀ {k : Nat} {m : Mode}, 1 ≤ k → i.modes[k - 1]? = some m → (view s).mode k = m.digit

theorem decoded_of_decode {s : State} {i : Instr} (hc : s.inCall = true) (hr : s.fsm = .running)
    (hpc : s.InRange s.pc.toInt) (hd : decode (s.mem.read s.pc.toInt.toNat) = .ok i) : Decoded s i := by
  obtain ⟨hnonneg, hwf, hopc, hdigits⟩ := decode_eq_ok_iff.mp hd
  have hword : (view s).M (view s).pc = (s.mem.read s.pc.toInt.toNat).toInt := view_M hpc.1
  refine ⟨step_of_decoded hc hr hpc hd, hwf, ?_, fun {k m} hk hm => ?_⟩
  · rw [hword, toInt_mod_hundred hnonneg, hopc]
  · obtain ⟨k, rfl⟩ : ∃ j, k = j + 1 := ⟨k - 1, by omega⟩
    rw [Reference.Tuple.mode, hword, reference_digit hnonneg, ← digit_of_hasDigits hdigits hm, digit, digit,
      Nat.div_div_eq_div_mul, show (10 : Nat) ^ (k + 1 + 1) = 100 * 10 ^ (k + 1 - 1) by rw [Nat.add_sub_cancel]; ring]

/-! ## Operands -/

section
variable {s : State} {i : Instr} {k : Nat} {m : Mode}

theorem view_raw (h : s.InRange (s.pc.toInt + k)) : (view s).raw k = (rawOperand s k).toInt := view_M h.1

/-- The address of the reference is the model's, for an operand that names one. -/
theorem Decoded.effectiveAddress_eq (h : Decoded s i) (hk : 1 ≤ k) (hm : i.modes[k - 1]? = some m)
    (hw : s.InRange (s.pc.toInt + k)) (hne : m ≠ .immediate) :
    effectiveAddress s m (rawOperand s k) = some ((view s).address k) := by
  rw [Reference.Tuple.address, h.mode hk hm, view_raw hw]
  cases m with
  | position => rfl
  | immediate => exact absurd rfl hne
  | relative => rfl

/-- Every operand word of `i` lies in memory, and every address its operands name. -/
structure OperandsInOrder (s : State) (i : Instr) : Prop extends Decoded s i where
  word : ∀ {k : Nat}, 1 ≤ k → k ≤ i.arity → s.InRange (s.pc.toInt + k)
  address : ∀ {k : Nat} {m : Mode}, 1 ≤ k → i.modes[k - 1]? = some m → m ≠ .immediate → s.InRange ((view s).address k)

theorem le_arity_of_mode (hk : 1 ≤ k) (hm : i.modes[k - 1]? = some m) : k ≤ i.arity := by
  have hlt := (List.getElem?_eq_some_iff.mp hm).1
  unfold Instr.arity
  omega

theorem OperandsInOrder.source (h : OperandsInOrder s i) (hk : 1 ≤ k) (hm : i.modes[k - 1]? = some m) :
    SourceReadable s k m := by
  have hw := h.word hk (le_arity_of_mode hk hm)
  refine ⟨hw, fun a ha => ?_⟩
  by_cases hne : m = .immediate
  · subst hne
    cases ha
  · rw [h.effectiveAddress_eq hk hm hw hne] at ha
    cases ha
    exact h.address hk hm hne

theorem OperandsInOrder.value (h : OperandsInOrder s i) (hk : 1 ≤ k) (hm : i.modes[k - 1]? = some m) :
    (view s).value k = (sourceValue s k m).toInt := by
  have hw := h.word hk (le_arity_of_mode hk hm)
  rw [Reference.Tuple.value, h.mode hk hm, sourceValue]
  by_cases hne : m = .immediate
  · subst hne
    exact view_raw hw
  · have hdigit : (m.digit : Int) ≠ 1 := fun h1 => hne (mode_digit_injective (Int.ofNat.inj h1))
    rw [if_neg hdigit, h.effectiveAddress_eq hk hm hw hne]
    exact view_M (h.address hk hm hne).1

theorem OperandsInOrder.destination (h : OperandsInOrder s i) (hk : 1 ≤ k) (hdst : i.destination = some k)
    (hm : i.modes[k - 1]? = some m) : DestinationAt s k m ((view s).address k) := by
  have hne := destination_writable h.wellFormed hdst hm
  have hw := h.word hk (le_arity_of_mode hk hm)
  exact ⟨hw, h.effectiveAddress_eq hk hm hw hne, h.address hk hm hne⟩

end

/-! ## Phase 5, instruction by instruction -/

section
variable {s : State}

/-- A completed store, with what its instruction may do to `pc`. -/
theorem refines_of_stores {t : State} {a v : Int} {n : Nat} (hstep : step s = .next t) (ha : 0 ≤ a)
    (h : StoresAndAdvances s t a v n) : Refines s (.goesOn { (view s).put a v with pc := (view s).pc + n }) := by
  refine ⟨t, hstep, view_of_stores ha h, ?_⟩
  rw [h.1]

section
variable {a b dst : Mode}

/-- The four instructions of format F3 store the integer `x` of their two values, where it fits. -/
theorem refines_of_storing {i : Instr} {x : Int} (h : OperandsInOrder s i) (hm : i.modes[3 - 1]? = some dst)
    (hdst : i.destination = some 3)
    (hexec : DestinationAt s 3 dst ((view s).address 3) →
      ∃ t, exec i s = .next t ∧ StoresAndAdvances s t ((view s).address 3) x 4) :
    Refines s (.goesOn { (view s).put ((view s).address 3) x with pc := (view s).pc + 4 }) := by
  have h3 := h.destination (k := 3) (by decide) hdst hm
  obtain ⟨t, ht, hst⟩ := hexec h3
  exact refines_of_stores (h.step_eq.trans ht) h3.2.2.1 hst

theorem refines_add (hwf : Memory.wf s.mem) (hs : s.memSize ≤ Config.maxMemSize)
    (h : OperandsInOrder s (.add a b dst)) : Refines s ((view s).act (Instr.add a b dst).opcode) := by
  have h1 := h.source (k := 1) (m := a) (by decide) rfl
  have h2 := h.source (k := 2) (m := b) (by decide) rfl
  change Refines s (Reference.checked ((view s).value 1 + (view s).value 2) _)
  rw [checked_eq, h.value (k := 1) (m := a) (by decide) rfl, h.value (k := 2) (m := b) (by decide) rfl]
  split
  case isTrue hf =>
    exact refines_of_storing h rfl rfl fun h3 => addStoresTheExactSum s a b dst _ hwf hs h1 h2 h3 hf
  case isFalse hf =>
    obtain ⟨t, ht, hst⟩ := overflowFaultsAndStoresNothing.1 s a b dst _ h1 h2
      (h.destination (k := 3) (by decide) rfl rfl) hf
    exact ⟨t, h.step_eq.trans ht, hst⟩

theorem refines_multiply (hwf : Memory.wf s.mem) (hs : s.memSize ≤ Config.maxMemSize)
    (h : OperandsInOrder s (.multiply a b dst)) : Refines s ((view s).act (Instr.multiply a b dst).opcode) := by
  have h1 := h.source (k := 1) (m := a) (by decide) rfl
  have h2 := h.source (k := 2) (m := b) (by decide) rfl
  change Refines s (Reference.checked ((view s).value 1 * (view s).value 2) _)
  rw [checked_eq, h.value (k := 1) (m := a) (by decide) rfl, h.value (k := 2) (m := b) (by decide) rfl]
  split
  case isTrue hf =>
    exact refines_of_storing h rfl rfl fun h3 => multiplyStoresTheExactProduct s a b dst _ hwf hs h1 h2 h3 hf
  case isFalse hf =>
    obtain ⟨t, ht, hst⟩ := overflowFaultsAndStoresNothing.2.1 s a b dst _ h1 h2
      (h.destination (k := 3) (by decide) rfl rfl) hf
    exact ⟨t, h.step_eq.trans ht, hst⟩

theorem refines_lessThan (hwf : Memory.wf s.mem) (hs : s.memSize ≤ Config.maxMemSize)
    (h : OperandsInOrder s (.lessThan a b dst)) : Refines s ((view s).act (Instr.lessThan a b dst).opcode) := by
  have h1 := h.source (k := 1) (m := a) (by decide) rfl
  have h2 := h.source (k := 2) (m := b) (by decide) rfl
  change Refines s (.goesOn { (view s).put _ (if (view s).value 1 < (view s).value 2 then 1 else 0) with pc := _ })
  rw [h.value (k := 1) (m := a) (by decide) rfl, h.value (k := 2) (m := b) (by decide) rfl]
  exact refines_of_storing h rfl rfl fun h3 => lessThanStoresTheSignedComparison s a b dst _ hwf hs h1 h2 h3

theorem refines_equals (hwf : Memory.wf s.mem) (hs : s.memSize ≤ Config.maxMemSize)
    (h : OperandsInOrder s (.equals a b dst)) : Refines s ((view s).act (Instr.equals a b dst).opcode) := by
  have h1 := h.source (k := 1) (m := a) (by decide) rfl
  have h2 := h.source (k := 2) (m := b) (by decide) rfl
  change Refines s (.goesOn { (view s).put _ (if (view s).value 1 = (view s).value 2 then 1 else 0) with pc := _ })
  rw [h.value (k := 1) (m := a) (by decide) rfl, h.value (k := 2) (m := b) (by decide) rfl]
  exact refines_of_storing h rfl rfl fun h3 => equalsStoresTheComparison s a b dst _ hwf hs h1 h2 h3

theorem toInt_inputValue : s.inputValue.toInt = if (view s).xv = true then (view s).xin else (view s).sig := by
  unfold State.inputValue
  exact apply_ite BitVec.toInt _ _ _

/-- The input is consumed first, and then it is a store. -/
theorem refines_saveInput (hwf : Memory.wf s.mem) (hs : s.memSize ≤ Config.maxMemSize)
    (h : OperandsInOrder s (.saveInput dst)) : Refines s ((view s).act (Instr.saveInput dst).opcode) := by
  have h1 := h.destination (k := 1) (m := dst) (by decide) rfl rfl
  have hst : StoresAndAdvances s.consumeInput _ _ _ 2 :=
    storesAndAdvances_of_write (a := (view s).address 1) hwf hs (by decide) h1.1
      (toInt_inputValue (s := s))
  exact ⟨_, h.step_eq.trans (exec_saveInput h1), view_of_stores h1.2.2.1 hst, rfl⟩

end

section
variable {a b : Mode}

/-- A state that differs in `pc` alone, seen through the view. -/
theorem refines_of_jump {t : State} {pc : Int} (hstep : step s = .next t) (hpc : t.pc.toInt = pc)
    (ht : t = { s with pc := t.pc }) : Refines s (.goesOn { view s with pc := pc }) := by
  refine ⟨t, hstep, ?_, ?_⟩
  · rw [ht, ← hpc]
    rfl
  · rw [ht]

theorem refines_jumpIfTrue (hs : s.memSize ≤ Config.maxMemSize) (h : OperandsInOrder s (.jumpIfTrue a b)) :
    Refines s ((view s).act (Instr.jumpIfTrue a b).opcode) := by
  change Refines s (.goesOn { view s with pc := if (view s).value 1 ≠ 0 then (view s).value 2 else (view s).pc + 3 })
  rw [h.value (k := 1) (m := a) (by decide) rfl, h.value (k := 2) (m := b) (by decide) rfl]
  obtain ⟨t, ht, hpc, hframe⟩ :=
    jumpIfTrueJumpsOrAdvances s a b hs (h.source (by decide) rfl) (h.source (by decide) rfl)
  exact refines_of_jump (h.step_eq.trans ht) hpc hframe

theorem refines_jumpIfFalse (hs : s.memSize ≤ Config.maxMemSize) (h : OperandsInOrder s (.jumpIfFalse a b)) :
    Refines s ((view s).act (Instr.jumpIfFalse a b).opcode) := by
  change Refines s (.goesOn { view s with pc := if (view s).value 1 = 0 then (view s).value 2 else (view s).pc + 3 })
  rw [h.value (k := 1) (m := a) (by decide) rfl, h.value (k := 2) (m := b) (by decide) rfl]
  obtain ⟨t, ht, hpc, hframe⟩ :=
    jumpIfFalseJumpsOrAdvances s a b hs (h.source (by decide) rfl) (h.source (by decide) rfl)
  exact refines_of_jump (h.step_eq.trans ht) hpc hframe

theorem refines_output (hs : s.memSize ≤ Config.maxMemSize) (h : OperandsInOrder s (.output a)) :
    Refines s ((view s).act (Instr.output a).opcode) := by
  obtain ⟨t, ht, hpc, hframe⟩ := outputYieldsAndSuspends s a hs (h.source (by decide) rfl)
  refine ⟨t, _, h.step_eq.trans ht, ?_, (h.value (k := 1) (by decide) rfl).symm, hframe⟩
  change view t = { view s with pc := s.pc.toInt + 2, xv := false }
  rw [← hpc, hframe]
  rfl

theorem refines_adjustRelative (hs : s.memSize ≤ Config.maxMemSize) (h : OperandsInOrder s (.adjustRelative a)) :
    Refines s ((view s).act (Instr.adjustRelative a).opcode) := by
  have h1 := h.source (k := 1) (m := a) (by decide) rfl
  change Refines s (Reference.checked (s.rb.toInt + (view s).value 1)
    { view s with rb := s.rb.toInt + (view s).value 1, pc := s.pc.toInt + 2 })
  rw [checked_eq, h.value (k := 1) (m := a) (by decide) rfl]
  split
  case isTrue hf =>
    obtain ⟨t, ht, hrb, hpc, hframe⟩ := adjustRelativeMovesTheBase s a hs h1 hf
    refine ⟨t, h.step_eq.trans ht, ?_, ?_⟩
    · rw [← hpc, ← hrb, hframe]
      rfl
    · rw [hframe]
  case isFalse hf =>
    obtain ⟨t, ht, hst⟩ := overflowFaultsAndStoresNothing.2.2 s a h1 hf
    exact ⟨t, h.step_eq.trans ht, hst⟩

end

/-- The opcodes that act as Halt have no arm of their own in `act`. -/
theorem act_of_unknownOpcode {opc : Nat} (h : unknownOpcode opc = true) (m : Reference.Tuple) : m.act opc = .stops := by
  simp only [unknownOpcode, Bool.or_eq_true, beq_iff_eq, Bool.and_eq_true, decide_eq_true_eq] at h
  unfold Reference.Tuple.act
  iterate 9 rw [if_neg (by omega)]

/-- Phase 5 with its operands in order. -/
theorem refines_act {i : Instr} (hwf : Memory.wf s.mem) (hs : s.memSize ≤ Config.maxMemSize)
    (h : OperandsInOrder s i) : Refines s ((view s).act i.opcode) := by
  cases i with
  | add a b dst => exact refines_add hwf hs h
  | multiply a b dst => exact refines_multiply hwf hs h
  | saveInput dst => exact refines_saveInput hwf hs h
  | output src => exact refines_output hs h
  | jumpIfTrue cond target => exact refines_jumpIfTrue hs h
  | jumpIfFalse cond target => exact refines_jumpIfFalse hs h
  | lessThan a b dst => exact refines_lessThan hwf hs h
  | equals a b dst => exact refines_equals hwf hs h
  | adjustRelative a => exact refines_adjustRelative hs h
  | halt => exact h.step_eq
  | unknownOperation opc =>
    change Refines s ((view s).act opc)
    rw [act_of_unknownOpcode h.wellFormed]
    exact h.step_eq

end

/-! ## The checks, in the order of rule R124 -/

section
variable {s : State}

/-- The opcode word at `pc`. -/
abbrev opcodeWord (s : State) : Word := s.mem.read s.pc.toInt.toNat

theorem view_opcodeWord (hpc : s.InRange s.pc.toInt) : (view s).M (view s).pc = (opcodeWord s).toInt := view_M hpc.1

theorem view_mode (hpc : s.InRange s.pc.toInt) (k : Nat) :
    (view s).mode k = Reference.digit (k + 1) (opcodeWord s).toInt :=
  congrArg (Reference.digit (k + 1)) (view_opcodeWord hpc)

/-- A word the decoder rejects raises its record. -/
theorem refines_of_rejected {d : DecodeFault} (hc : s.inCall = true) (hr : s.fsm = .running)
    (hpc : s.InRange s.pc.toInt) (hd : decode (opcodeWord s) = .error d) :
    Refines s (.raises (recordOfDecodeFault d).code (recordOfDecodeFault d).k (recordOfDecodeFault d).value) :=
  step_of_rejected hc hr hpc hd

theorem isDestination_bounds {opc : Int} {k : Nat} (h : Reference.isDestination opc k = true) :
    1 ≤ k ∧ k ≤ Reference.arity opc := by
  simp only [Reference.isDestination, Bool.or_eq_true, Bool.and_eq_true, beq_iff_eq] at h
  obtain ⟨rfl, hopc⟩ | ⟨rfl, rfl⟩ := h
  · refine ⟨by decide, ?_⟩
    rw [Reference.arity, if_pos (by tauto)]
  · decide

section
variable (hc : s.inCall = true) (hr : s.fsm = .running) (hpc : s.InRange s.pc.toInt) (hw : 0 ≤ (opcodeWord s).toInt)
include hc hr hpc hw

/-- The lowest illegal mode digit (rules R58, R72). -/
theorem refines_of_illegalMode {k : Nat}
    (h : Reference.firstBad (Reference.arity ((opcodeWord s).toInt % 100)) (fun k => decide (2 < (view s).mode k)) =
      some k) : Refines s (.raises .illegalMode k ((view s).mode k)) := by
  obtain ⟨h1, hk, hbad, hlow⟩ := firstBad_eq_some h
  simp only [view_mode hpc, decide_eq_true_eq, decide_eq_false_iff_not, not_lt] at hbad hlow ⊢
  have hd := (decodeRejectsInOrder (opcodeWord s) _).mpr (Or.inr (Or.inl ⟨hw, k, h1, hk, hbad, hlow, rfl⟩))
  have hraises := refines_of_rejected hc hr hpc hd
  rwa [recordOfDecodeFault, Int.toNat_of_nonneg (by omega)] at hraises

/-- With legal digits, an Immediate destination (rules R59, R72). -/
theorem refines_of_immediateDestination {k : Nat}
    (hlegal : ∀ j : Nat, 1 ≤ j → j ≤ Reference.arity ((opcodeWord s).toInt % 100) →
      Reference.digit (j + 1) (opcodeWord s).toInt ≤ 2)
    (h : Reference.firstBad (Reference.arity ((opcodeWord s).toInt % 100))
      (fun k => Reference.isDestination ((opcodeWord s).toInt % 100) k && (view s).mode k == 1) = some k) :
    Refines s (.raises .immediateWriteTarget k 1) := by
  obtain ⟨-, -, hbad, -⟩ := firstBad_eq_some h
  simp only [view_mode hpc, Bool.and_eq_true, beq_iff_eq] at hbad
  exact refines_of_rejected hc hr hpc ((decodeRejectsInOrder (opcodeWord s) _).mpr
    (Or.inr (Or.inr ⟨hw, k, hbad.1, hbad.2, hlegal, rfl⟩)))

/-- A word that passes the decoder's checks is an instruction. -/
theorem exists_decoded
    (hlegal : ∀ j : Nat, 1 ≤ j → j ≤ Reference.arity ((opcodeWord s).toInt % 100) →
      Reference.digit (j + 1) (opcodeWord s).toInt ≤ 2)
    (h : Reference.firstBad (Reference.arity ((opcodeWord s).toInt % 100))
      (fun k => Reference.isDestination ((opcodeWord s).toInt % 100) k && (view s).mode k == 1) = none) :
    ∃ i, Decoded s i := by
  cases hd : decode (opcodeWord s) with
  | ok i => exact ⟨i, decoded_of_decode hc hr hpc hd⟩
  | error d =>
    exfalso
    obtain ⟨hneg, -⟩ | ⟨-, k, h1, hk, hbad, -⟩ | ⟨-, k, hdst, himm, -⟩ := (decodeRejectsInOrder _ d).mp hd
    · omega
    · exact absurd (hlegal k h1 hk) (not_le.mpr hbad)
    · obtain ⟨h1, hk⟩ := isDestination_bounds hdst
      have hgood := firstBad_eq_none h h1 hk (arity_le_three _)
      simp [hdst, view_mode hpc, himm] at hgood

end

/-- The lowest operand word outside memory (rule R75). -/
theorem refines_of_word {i : Instr} {k : Nat} (h : Decoded s i)
    (hbad : Reference.firstBad i.arity (fun k => !(view s).inRange ((view s).pc + k)) = some k) :
    Refines s (.raises .outOfRangeAccess k ((view s).pc + k)) := by
  obtain ⟨h1, hk, hout, hlow⟩ := firstBad_eq_some hbad
  simp only [Bool.not_eq_true', Bool.not_eq_false', view_inRange, view_inRange_false] at hout hlow
  obtain ⟨t, ht, hf⟩ := operandWordOutsideMemoryFaults s i k h1 hk hout hlow
  exact ⟨t, h.step_eq.trans ht, hf⟩

theorem exists_mode {i : Instr} {k : Nat} (h1 : 1 ≤ k) (hk : k ≤ i.arity) : ∃ m, i.modes[k - 1]? = some m :=
  ⟨_, List.getElem?_eq_getElem (show k - 1 < i.modes.length from Nat.lt_of_lt_of_le (by omega) hk)⟩

theorem mode_digit_eq_one_iff {m : Mode} : m.digit = 1 ↔ m = .immediate := by cases m <;> simp [Mode.digit]

/-- The lowest operand address outside memory (rules R76, R77). -/
theorem refines_of_address {i : Instr} {k : Nat} (h : Decoded s i)
    (hword : ∀ {j : Nat}, 1 ≤ j → j ≤ i.arity → s.InRange (s.pc.toInt + j))
    (hbad : Reference.firstBad i.arity (fun k => (view s).mode k != 1 && !(view s).inRange ((view s).address k)) =
      some k) : Refines s (.raises .outOfRangeAccess k ((view s).address k)) := by
  obtain ⟨h1, hk, hout, hlow⟩ := firstBad_eq_some hbad
  obtain ⟨m, hm⟩ := exists_mode h1 hk
  simp only [Bool.and_eq_true, bne_iff_ne, ne_eq, Bool.not_eq_true', view_inRange_false, h.mode h1 hm,
    Nat.cast_eq_one, mode_digit_eq_one_iff] at hout
  obtain ⟨hne, hout⟩ := hout
  obtain ⟨t, ht, hf⟩ := operandAddressOutsideMemoryFaults s i k m _ (fun j => hword) h1 hm
    (h.effectiveAddress_eq h1 hm (hword h1 hk) hne) hout fun j n b hj hjk hn hb => by
      have hgood := hlow j hj hjk
      have hnne : n ≠ .immediate := fun he => by
        subst he
        cases hb
      rw [h.effectiveAddress_eq hj hn (hword hj (hjk.le.trans hk)) hnne] at hb
      cases hb
      simpa [h.mode hj hn, mode_digit_eq_one_iff, hnne, view_inRange] using hgood
  exact ⟨t, h.step_eq.trans ht, hf⟩

/-- What the reference's two searches have found in order is what phase 5 needs. -/
theorem operandsInOrder_of_checks {i : Instr} (h : Decoded s i)
    (hword : ∀ {j : Nat}, 1 ≤ j → j ≤ i.arity → s.InRange (s.pc.toInt + j))
    (hgood : Reference.firstBad i.arity (fun k => (view s).mode k != 1 && !(view s).inRange ((view s).address k)) =
      none) : OperandsInOrder s i where
  toDecoded := h
  word := hword
  address := fun {k m} hk hm hne => by
    have hk' := firstBad_eq_none hgood hk (le_arity_of_mode hk hm) (arity_le i)
    simpa [h.mode hk hm, mode_digit_eq_one_iff, hne, view_inRange] using hk'

/-- The step refines `ExecOne`: the checks in their order, each with its lemma above, then phase 5. -/
theorem refines_execOne (hwf : Memory.wf s.mem) (hs : s.memSize ≤ Config.maxMemSize) (hc : s.inCall = true)
    (hr : s.fsm = .running) : Refines s (view s).execOne := by
  unfold Reference.Tuple.execOne
  dsimp only
  split
  case isTrue hpc => exact fetchOutsideMemoryFaults s hc hr (view_inRange_false.mp hpc)
  case isFalse hpc =>
  rw [Bool.not_eq_false, view_inRange] at hpc
  rw [view_opcodeWord hpc]
  split
  case isTrue hneg => exact refines_of_rejected hc hr hpc (decode_of_neg hneg)
  case isFalse hw =>
  rw [not_lt] at hw
  split
  case h_1 k hbad => exact refines_of_illegalMode hc hr hpc hw hbad
  case h_2 hlegal =>
  have hdigits : ∀ j : Nat, 1 ≤ j → j ≤ Reference.arity ((opcodeWord s).toInt % 100) →
      Reference.digit (j + 1) (opcodeWord s).toInt ≤ 2 := fun j hj hjn => by
    simpa [view_mode hpc] using firstBad_eq_none hlegal hj hjn (arity_le_three _)
  split
  case h_1 k hbad => exact refines_of_immediateDestination hc hr hpc hw hdigits hbad
  case h_2 hdst =>
  obtain ⟨i, hi⟩ := exists_decoded hc hr hpc hw hdigits hdst
  have hopc := hi.opcode
  rw [view_opcodeWord hpc] at hopc
  rw [hopc, reference_arity hi.wellFormed]
  split
  case h_1 k hbad => exact refines_of_word hi hbad
  case h_2 hwords =>
  have hword : ∀ {j : Nat}, 1 ≤ j → j ≤ i.arity → s.InRange (s.pc.toInt + j) := fun {j} hj hji => by
    have hin : (view s).inRange ((view s).pc + j) = true := by simpa using firstBad_eq_none hwords hj hji (arity_le i)
    exact view_inRange.mp hin
  split
  case h_1 k hbad => exact refines_of_address hi hword hbad
  case h_2 hgood => exact refines_act hwf hs (operandsInOrder_of_checks hi hword hgood)

end

/-- Settles O46: `Refines` is the statement's reading of each outcome. -/
theorem stepRefinesExecOne : Obligations.StepRefinesExecOne := by
  unfold Obligations.StepRefinesExecOne
  intro s hwf hs hc hr
  exact refines_execOne hwf hs hc hr

end Sys2Proof.Machine
end
